-- ==== Sys2Proof/Word.lean ====
section
/-! DEFINITION. The word types of the machine and of its instruction fields. -/

namespace Sys2Proof

/-- A byte: a memory cell, a general register, the delay timer (00_scope.md R9, `u8`). -/
abbrev Byte := BitVec 8

/-- A 16-bit word: an opcode, `PC`, `I`, a stack entry (00_scope.md R9, `u16`). -/
abbrev Word := BitVec 16

/-- The 12-bit `addr` field (30_encoding.md R80, R84, `u12`). -/
abbrev Addr := BitVec 12

/-- The number of a general register; every value names one (10_state.md R22). -/
abbrev RegIdx := Fin 16

/-- The register number of VF (10_state.md R23). -/
abbrev vf : RegIdx := 15

end Sys2Proof
end

