-- ==== Sys2Proof/Syntax.lean ====
section
/-! DEFINITION. The decoded instruction: 30_encoding.md R84, one constructor per row of opcode_table.json. -/

namespace Sys2Proof

/-- The decoder's output type, 30_encoding.md R84, in the order of that rule. -/
inductive Instr where
  /-- `Clear`, R140. -/
  | clear
  /-- `Return`, R150. -/
  | ret
  /-- `Jump(addr)`, R151. -/
  | jump (addr : Addr)
  /-- `Call(addr)`, R152. -/
  | call (addr : Addr)
  /-- `SkipEqImm(x,kk)`, R154. -/
  | skipEqImm (x : RegIdx) (kk : Byte)
  /-- `SkipNeImm(x,kk)`, R155. -/
  | skipNeImm (x : RegIdx) (kk : Byte)
  /-- `SkipEqReg(x,y)`, R156. -/
  | skipEqReg (x y : RegIdx)
  /-- `SetImm(x,kk)`, R172. -/
  | setImm (x : RegIdx) (kk : Byte)
  /-- `AddImm(x,kk)`, R173. -/
  | addImm (x : RegIdx) (kk : Byte)
  /-- `Move(x,y)`, R174. -/
  | move (x y : RegIdx)
  /-- `Or(x,y)`, R175. -/
  | or (x y : RegIdx)
  /-- `And(x,y)`, R176. -/
  | and (x y : RegIdx)
  /-- `Xor(x,y)`, R177. -/
  | xor (x y : RegIdx)
  /-- `AddReg(x,y)`, R178. -/
  | addReg (x y : RegIdx)
  /-- `SubReg(x,y)`, R179. -/
  | subReg (x y : RegIdx)
  /-- `ShiftRight(x)`, R180. -/
  | shiftRight (x : RegIdx)
  /-- `SubnReg(x,y)`, R181. -/
  | subnReg (x y : RegIdx)
  /-- `ShiftLeft(x)`, R182. -/
  | shiftLeft (x : RegIdx)
  /-- `SkipNeReg(x,y)`, R157. -/
  | skipNeReg (x y : RegIdx)
  /-- `SetIndex(addr)`, R200. -/
  | setIndex (addr : Addr)
  /-- `JumpIndexed(addr)`, R153. -/
  | jumpIndexed (addr : Addr)
  /-- `Random(x,kk)`, R184. -/
  | random (x : RegIdx) (kk : Byte)
  /-- `Draw(x,y,n)`, R141; `n` counts rows, 0..15. -/
  | draw (x y : RegIdx) (n : Fin 16)
  /-- `SkipIfKeyDown(x)`, R158. -/
  | skipIfKeyDown (x : RegIdx)
  /-- `SkipIfKeyUp(x)`, R159. -/
  | skipIfKeyUp (x : RegIdx)
  /-- `GetDelay(x)`, R220. -/
  | getDelay (x : RegIdx)
  /-- `SetDelay(x)`, R221. -/
  | setDelay (x : RegIdx)
  /-- `AddIndex(x)`, R201. -/
  | addIndex (x : RegIdx)
  /-- `LoadFontAddr(x)`, R202. -/
  | loadFontAddr (x : RegIdx)
  /-- `StoreBCD(x)`, R203. -/
  | storeBCD (x : RegIdx)
  /-- `DumpRegisters(x)`, R205. -/
  | dumpRegisters (x : RegIdx)
  /-- `LoadRegisters(x)`, R206. -/
  | loadRegisters (x : RegIdx)
  /-- `Unknown(w)`, R222: a word no other row matches, carried whole. -/
  | unknown (w : Word)
  deriving DecidableEq, Repr

end Sys2Proof
end

