-- ==== Sys2Proof/WellFormed.lean ====
section
/-! DEFINITION. Which instructions are well-formed: 30_encoding.md R89 and R92. -/

namespace Sys2Proof

/-- The unknown-word space of 30_encoding.md R89, group by group. -/
def unknownWord (w : Word) : Bool :=
  let group := w.toNat / 4096
  let n := w.toNat % 16
  let kk := w.toNat % 256
  (group == 0x0 && !(n == 0x0 || n == 0xE))
  || (group == 0x8 && (n == 0x8 || n == 0x9 || n == 0xA || n == 0xB || n == 0xC || n == 0xD || n == 0xF))
  || (group == 0xE && !(kk == 0x9E || kk == 0xA1))
  || (group == 0xF && !(kk == 0x07 || kk == 0x15 || kk == 0x1E || kk == 0x29 || kk == 0x33 || kk == 0x55 || kk == 0x65))

/-- 30_encoding.md R92: "A value `Unknown(w)` whose `w` is outside that set is not well-formed". The fields of every
other constructor hold exactly the values their encodings admit, by their types. -/
def Instr.wf : Instr → Bool
  | .unknown w => unknownWord w
  | .clear | .ret | .jump _ | .call _ | .skipEqImm _ _ | .skipNeImm _ _ | .skipEqReg _ _ | .setImm _ _
  | .addImm _ _ | .move _ _ | .or _ _ | .and _ _ | .xor _ _ | .addReg _ _ | .subReg _ _ | .shiftRight _
  | .subnReg _ _ | .shiftLeft _ | .skipNeReg _ _ | .setIndex _ | .jumpIndexed _ | .random _ _ | .draw _ _ _
  | .skipIfKeyDown _ | .skipIfKeyUp _ | .getDelay _ | .setDelay _ | .addIndex _ | .loadFontAddr _
  | .storeBCD _ | .dumpRegisters _ | .loadRegisters _ => true

end Sys2Proof
end

