-- ==== Sys2Proof/Decode.lean ====
section
/-! DEFINITION. The decoder (30_encoding.md R80, R85), the encoder (R92) and the opcode map (R90). -/

namespace Sys2Proof

/-- The four bits of `w` from bit `lo` up, as a number. -/
def nibbleAt (w : Word) (lo : Nat) : Fin 16 := (w.extractLsb' lo 4).toFin

/-- `group = w[15:12]`, 30_encoding.md R80. -/
def fieldGroup (w : Word) : Fin 16 := nibbleAt w 12

/-- `x = w[11:8]`, 30_encoding.md R80. -/
def fieldX (w : Word) : Fin 16 := nibbleAt w 8

/-- `y = w[7:4]`, 30_encoding.md R80. -/
def fieldY (w : Word) : Fin 16 := nibbleAt w 4

/-- `n = w[3:0]`, 30_encoding.md R80. -/
def fieldN (w : Word) : Fin 16 := nibbleAt w 0

/-- `kk = w[7:0]`, 30_encoding.md R80. -/
def fieldKK (w : Word) : Byte := w.extractLsb' 0 8

/-- `addr = w[11:0]`, 30_encoding.md R80. -/
def fieldAddr (w : Word) : Addr := w.extractLsb' 0 12

/-- Group 0x0, keyed on `n` alone (30_encoding.md R86). -/
def decodeGroup0 (w : Word) : Instr :=
  match (fieldN w).val with
  | 0x0 => .clear
  | 0xE => .ret
  | _ => .unknown w

/-- Group 0x8, keyed on `n`; the shifts do not examine `y` (30_encoding.md R85, R88). -/
def decodeGroup8 (w : Word) : Instr :=
  match (fieldN w).val with
  | 0x0 => .move (fieldX w) (fieldY w)
  | 0x1 => .or (fieldX w) (fieldY w)
  | 0x2 => .and (fieldX w) (fieldY w)
  | 0x3 => .xor (fieldX w) (fieldY w)
  | 0x4 => .addReg (fieldX w) (fieldY w)
  | 0x5 => .subReg (fieldX w) (fieldY w)
  | 0x6 => .shiftRight (fieldX w)
  | 0x7 => .subnReg (fieldX w) (fieldY w)
  | 0xE => .shiftLeft (fieldX w)
  | _ => .unknown w

/-- Group 0xE, keyed on `kk` (30_encoding.md R85). -/
def decodeGroupE (w : Word) : Instr :=
  match (fieldKK w).toNat with
  | 0x9E => .skipIfKeyDown (fieldX w)
  | 0xA1 => .skipIfKeyUp (fieldX w)
  | _ => .unknown w

/-- Group 0xF, keyed on `kk` (30_encoding.md R85). -/
def decodeGroupF (w : Word) : Instr :=
  match (fieldKK w).toNat with
  | 0x07 => .getDelay (fieldX w)
  | 0x15 => .setDelay (fieldX w)
  | 0x1E => .addIndex (fieldX w)
  | 0x29 => .loadFontAddr (fieldX w)
  | 0x33 => .storeBCD (fieldX w)
  | 0x55 => .dumpRegisters (fieldX w)
  | 0x65 => .loadRegisters (fieldX w)
  | _ => .unknown w

/-- `decode : u16 -> Instr` of 30_encoding.md R85. Total: an unmatched word is `Unknown`, by name, with the word.
`group` has four bits, so the last arm is never taken. -/
def decodeWord (w : Word) : Instr :=
  match (fieldGroup w).val with
  | 0x0 => decodeGroup0 w
  | 0x1 => .jump (fieldAddr w)
  | 0x2 => .call (fieldAddr w)
  | 0x3 => .skipEqImm (fieldX w) (fieldKK w)
  | 0x4 => .skipNeImm (fieldX w) (fieldKK w)
  | 0x5 => .skipEqReg (fieldX w) (fieldY w)
  | 0x6 => .setImm (fieldX w) (fieldKK w)
  | 0x7 => .addImm (fieldX w) (fieldKK w)
  | 0x8 => decodeGroup8 w
  | 0x9 => .skipNeReg (fieldX w) (fieldY w)
  | 0xA => .setIndex (fieldAddr w)
  | 0xB => .jumpIndexed (fieldAddr w)
  | 0xC => .random (fieldX w) (fieldKK w)
  | 0xD => .draw (fieldX w) (fieldY w) (fieldN w)
  | 0xE => decodeGroupE w
  | 0xF => decodeGroupF w
  | _ => .unknown w

/-- Why a list of bytes holds no instruction. Raised by `decode` alone; safe: no step decodes a short list. -/
inductive DecodeError where
  /-- Fewer than the two bytes of a word (30_encoding.md R81). -/
  | truncated
  deriving DecidableEq, Repr

/-- Two bytes as fetched, the one at the lower address first, make a big-endian word (20_memory.md R61). -/
def wordOfBytes (hi lo : Byte) : Word := hi ++ lo

/-- The byte at the lower address, `w[15:8]` (20_memory.md R61). -/
def highByte (w : Word) : Byte := w.extractLsb' 8 8

/-- The byte at the higher address, `w[7:0]` (20_memory.md R61). -/
def lowByte (w : Word) : Byte := w.extractLsb' 0 8

/-- The bytes of a word as they lie in memory (20_memory.md R61). -/
def bytesOfWord (w : Word) : List Byte := [highByte w, lowByte w]

/-- The decoder over bytes: one instruction and the rest, or a rejection by name. -/
def decode : List Byte → Except DecodeError (Instr × List Byte)
  | hi :: lo :: rest => .ok (decodeWord (wordOfBytes hi lo), rest)
  | _ => .error .truncated

/-- Format A: `gggg aaaa aaaa aaaa` (30_encoding.md R82). -/
def packA (g : BitVec 4) (addr : Addr) : Word := g ++ addr

/-- Formats XK and XS: `gggg xxxx kkkk kkkk` (30_encoding.md R82). -/
def packXK (g : BitVec 4) (x : Fin 16) (kk : Byte) : Word := g ++ (BitVec.ofFin (w := 4) x ++ kk)

/-- Formats XYN, XYN8, XY- and X-N8: `gggg xxxx yyyy nnnn` (30_encoding.md R82). -/
def packXYN (g : BitVec 4) (x y n : Fin 16) : Word :=
  g ++ (BitVec.ofFin (w := 4) x ++ (BitVec.ofFin (w := 4) y ++ BitVec.ofFin (w := 4) n))

/-- The canonical encoding of 30_encoding.md R92: ignored bits 0, but `Clear` is 0x00E0 and `Return` 0x00EE. -/
def encode : Instr → Word
  | .clear => 0x00E0
  | .ret => 0x00EE
  | .jump addr => packA 0x1 addr
  | .call addr => packA 0x2 addr
  | .skipEqImm x kk => packXK 0x3 x kk
  | .skipNeImm x kk => packXK 0x4 x kk
  | .skipEqReg x y => packXYN 0x5 x y 0
  | .setImm x kk => packXK 0x6 x kk
  | .addImm x kk => packXK 0x7 x kk
  | .move x y => packXYN 0x8 x y 0x0
  | .or x y => packXYN 0x8 x y 0x1
  | .and x y => packXYN 0x8 x y 0x2
  | .xor x y => packXYN 0x8 x y 0x3
  | .addReg x y => packXYN 0x8 x y 0x4
  | .subReg x y => packXYN 0x8 x y 0x5
  | .shiftRight x => packXYN 0x8 x 0 0x6
  | .subnReg x y => packXYN 0x8 x y 0x7
  | .shiftLeft x => packXYN 0x8 x 0 0xE
  | .skipNeReg x y => packXYN 0x9 x y 0
  | .setIndex addr => packA 0xA addr
  | .jumpIndexed addr => packA 0xB addr
  | .random x kk => packXK 0xC x kk
  | .draw x y n => packXYN 0xD x y n
  | .skipIfKeyDown x => packXK 0xE x 0x9E
  | .skipIfKeyUp x => packXK 0xE x 0xA1
  | .getDelay x => packXK 0xF x 0x07
  | .setDelay x => packXK 0xF x 0x15
  | .addIndex x => packXK 0xF x 0x1E
  | .loadFontAddr x => packXK 0xF x 0x29
  | .storeBCD x => packXK 0xF x 0x33
  | .dumpRegisters x => packXK 0xF x 0x55
  | .loadRegisters x => packXK 0xF x 0x65
  | .unknown w => w

/-- The bytes of an encoded instruction in memory order. -/
def encodeBytes (i : Instr) : List Byte := bytesOfWord (encode i)

/-- The variant's name, as 30_encoding.md R90 and opcode_table.json write it. -/
def Instr.mnemonic : Instr → String
  | .clear => "Clear"
  | .ret => "Return"
  | .jump _ => "Jump"
  | .call _ => "Call"
  | .skipEqImm _ _ => "SkipEqImm"
  | .skipNeImm _ _ => "SkipNeImm"
  | .skipEqReg _ _ => "SkipEqReg"
  | .setImm _ _ => "SetImm"
  | .addImm _ _ => "AddImm"
  | .move _ _ => "Move"
  | .or _ _ => "Or"
  | .and _ _ => "And"
  | .xor _ _ => "Xor"
  | .addReg _ _ => "AddReg"
  | .subReg _ _ => "SubReg"
  | .shiftRight _ => "ShiftRight"
  | .subnReg _ _ => "SubnReg"
  | .shiftLeft _ => "ShiftLeft"
  | .skipNeReg _ _ => "SkipNeReg"
  | .setIndex _ => "SetIndex"
  | .jumpIndexed _ => "JumpIndexed"
  | .random _ _ => "Random"
  | .draw _ _ _ => "Draw"
  | .skipIfKeyDown _ => "SkipIfKeyDown"
  | .skipIfKeyUp _ => "SkipIfKeyUp"
  | .getDelay _ => "GetDelay"
  | .setDelay _ => "SetDelay"
  | .addIndex _ => "AddIndex"
  | .loadFontAddr _ => "LoadFontAddr"
  | .storeBCD _ => "StoreBCD"
  | .dumpRegisters _ => "DumpRegisters"
  | .loadRegisters _ => "LoadRegisters"
  | .unknown _ => "Unknown"

/-- A row of the opcode map: a word `w` matches it when `w & mask = bits` (30_encoding.md R90). -/
structure OpcodeRow where
  mnemonic : String
  bits : Word
  mask : Word
  deriving DecidableEq, Repr

/-- The rows of 30_encoding.md R90 whose mask is 0xF000: the whole of a group. -/
def opcodeMapGroups : List OpcodeRow :=
  [ ⟨"Jump", 0x1000, 0xF000⟩, ⟨"Call", 0x2000, 0xF000⟩, ⟨"SkipEqImm", 0x3000, 0xF000⟩,
    ⟨"SkipNeImm", 0x4000, 0xF000⟩, ⟨"SkipEqReg", 0x5000, 0xF000⟩, ⟨"SetImm", 0x6000, 0xF000⟩,
    ⟨"AddImm", 0x7000, 0xF000⟩, ⟨"SkipNeReg", 0x9000, 0xF000⟩, ⟨"SetIndex", 0xA000, 0xF000⟩,
    ⟨"JumpIndexed", 0xB000, 0xF000⟩, ⟨"Random", 0xC000, 0xF000⟩, ⟨"Draw", 0xD000, 0xF000⟩ ]

/-- The rows of 30_encoding.md R90 with a sub-key in `n`, mask 0xF00F. -/
def opcodeMapNibbles : List OpcodeRow :=
  [ ⟨"Clear", 0x0000, 0xF00F⟩, ⟨"Return", 0x000E, 0xF00F⟩, ⟨"Move", 0x8000, 0xF00F⟩,
    ⟨"Or", 0x8001, 0xF00F⟩, ⟨"And", 0x8002, 0xF00F⟩, ⟨"Xor", 0x8003, 0xF00F⟩,
    ⟨"AddReg", 0x8004, 0xF00F⟩, ⟨"SubReg", 0x8005, 0xF00F⟩, ⟨"ShiftRight", 0x8006, 0xF00F⟩,
    ⟨"SubnReg", 0x8007, 0xF00F⟩, ⟨"ShiftLeft", 0x800E, 0xF00F⟩ ]

/-- The rows of 30_encoding.md R90 with a sub-key in `kk`, mask 0xF0FF. -/
def opcodeMapBytes : List OpcodeRow :=
  [ ⟨"SkipIfKeyDown", 0xE09E, 0xF0FF⟩, ⟨"SkipIfKeyUp", 0xE0A1, 0xF0FF⟩, ⟨"GetDelay", 0xF007, 0xF0FF⟩,
    ⟨"SetDelay", 0xF015, 0xF0FF⟩, ⟨"AddIndex", 0xF01E, 0xF0FF⟩, ⟨"LoadFontAddr", 0xF029, 0xF0FF⟩,
    ⟨"StoreBCD", 0xF033, 0xF0FF⟩, ⟨"DumpRegisters", 0xF055, 0xF0FF⟩, ⟨"LoadRegisters", 0xF065, 0xF0FF⟩ ]

/-- The opcode map of 30_encoding.md R90: its 32 rows with a mask. `Unknown` is every word that matches none. -/
def opcodeMap : List OpcodeRow := opcodeMapGroups ++ opcodeMapNibbles ++ opcodeMapBytes

/-- The first word of an instruction whose table bits are `w`; bits at `nbits` and above are 0. -/
def tableWord (nbits w : Nat) : Word := BitVec.ofNat 16 (w % 2 ^ nbits)

/-- What the decoder reads from an instruction whose bits are numbered as opcode_table.json numbers them: one 16-bit
word, bit 0 its least significant bit, laid out as in memory. -/
def decodeTableWord (nbits w : Nat) : Option Instr :=
  match decode (bytesOfWord (tableWord nbits w)) with
  | .ok (i, _) => some i
  | .error _ => none

end Sys2Proof
end

