-- ==== Sys2Proof/Config.lean ====
section
/-! DEFINITION. What is fixed for the machine (00_scope.md R6), and the free values of the step's arguments. -/

namespace Sys2Proof.Config

/-- `MEM_SIZE`, 00_scope.md R6. -/
def memSize : Nat := 4096

/-- `PROG_BASE`, 00_scope.md R6. -/
def progBase : Nat := 0x200

/-- `PROG_MAX`, 00_scope.md R6. -/
def progMax : Nat := 3584

/-- `FONT_LEN`, 00_scope.md R6; `FONT_BASE` is 0. -/
abbrev fontLen : Nat := 80

/-- FREE VALUE (notes/assumptions/1.md): the `keys` argument of the step call number `n`, where the state lists none.
No body: nothing is known of it (00_scope.md R3, 40_step_cycle.md R120, R133). -/
opaque freeKeys : Nat → Vector Bool 16

/-- FREE VALUE (notes/assumptions/1.md): the `rand` argument of the step call number `n`, where the state lists none.
"A model takes `rand` as a free input under no law" (10_state.md R37, 00_scope.md R7). -/
opaque freeRand : Nat → Byte

end Sys2Proof.Config
end

