-- ==== Sys2Proof/Machine/State.lean ====
section
/-! DEFINITION. The machine state, plain data: the record of 10_state.md R20 and the model's own fields for the
arguments and the result of a step (notes/assumptions/1.md to 3.md). -/

namespace Sys2Proof.Machine

/-- Why the machine is Halted: 10_state.md R35, 60_exceptions.md R240, in the order of that rule's codes. -/
inductive HaltReason where
  /-- Step phase 2, when `PC + 1 >= 4096`: a normal end (R122, R247). -/
  | fetchOutOfBounds
  /-- Step phase 6, when the advanced `PC >= 4096`: a normal end (R128, R247). -/
  | pcOutOfBounds
  /-- `Call` with `SP = 16`: fatal (R243). -/
  | stackOverflow
  /-- `Return` with `SP = 0`: fatal (R244). -/
  | stackUnderflow
  /-- A data access at `addr >= 4096`, the lowest such address, an exact natural: fatal (R245). -/
  | memoryFault (addr : Nat)
  /-- A key index `value >= 16`: fatal (R246). -/
  | keyIndexFault (value : Byte)
  deriving DecidableEq, Repr

/-- The step-machine state (10_state.md R35). -/
inductive Run where
  | running
  | halted (reason : HaltReason)
  deriving DecidableEq, Repr

/-- The key-state latch: 16 booleans (10_state.md R36). -/
abbrev Keys := Vector Bool 16

/-- The display buffer: 32 rows of 64 one-bit pixels, `DISP[y][x]` (10_state.md R39). -/
abbrev Display := Vector (Vector Bool 64) 32

/-- Memory: the parameter FONT, which fixes the reset contents (10_state.md R40), and the cells that differ from
them, addresses strictly rising. `Memory.read` says what an address reads as. -/
structure Memory where
  font : FontTable
  cells : List Host.Cell
  deriving DecidableEq, Repr

/-- The arguments of one step call besides the state (40_step_cycle.md R120). -/
structure StepInput where
  keys : Keys
  rand : Byte
  deriving DecidableEq, Repr

/-- The machine state. The first ten fields are the record of 10_state.md R20; the last five are the model's own. -/
structure State where
  /-- `V[0..15]` (R22). -/
  v : Vector Byte 16
  /-- `I` (R25). -/
  i : Word
  /-- `PC` (R26). -/
  pc : Word
  /-- `SP`, the number of occupied stack entries, 0..16 (R29). -/
  sp : Fin 17
  /-- `STACK[0..15]` (R28). -/
  stack : Vector Word 16
  /-- `DT` (R33). -/
  dt : Byte
  /-- `DISP` (R39). -/
  disp : Display
  /-- `KEY[0..15]` (R36). -/
  key : Keys
  /-- `MEM` (20_memory.md R60). -/
  mem : Memory
  /-- `run` (R35). -/
  run : Run
  /-- Model's own: the `rand` argument of the step being executed (R37; notes/assumptions/2.md). -/
  rand : Byte
  /-- Model's own: the last step's result field `display_changed` (40_step_cycle.md R129; notes/assumptions/3.md). -/
  displayChanged : Bool
  /-- Model's own: the last step's result field `unknown` (40_step_cycle.md R129; notes/assumptions/3.md). -/
  unknown : Option Word
  /-- Model's own: the arguments of the coming step calls, oldest first; past its end they are free values
  (notes/assumptions/1.md). -/
  inputs : List StepInput
  /-- Model's own: how many step calls were taken, the index of the free values (notes/assumptions/1.md). -/
  steps : Nat
  deriving DecidableEq, Repr

/-- Reasons the host's interface is told that an operation failed. No step of the machine raises one: every halt of
the machine is a next state whose `run` says why (notes/assumptions/5.md). -/
inductive Fault where
  /-- `LoadError`: raised by `load` alone, for an image longer than 3584 bytes, before any byte is written
  (60_exceptions.md R248, 70_reset_and_hazards.md R264). Safe. -/
  | loadError
  deriving DecidableEq, Repr

/-- Reasons a step or an instruction is refused. -/
inductive Refusal where
  /-- An instruction of the opcode table without a meaning; raised by a dispatch arm alone (no arm does). Safe. -/
  | notModelled (mnemonic : String)
  /-- `step` called on a Halted machine: "no next state and no result" (40_step_cycle.md R130). Raised by `step`
  alone. Safe. -/
  | stepWhileHalted
  deriving DecidableEq, Repr

/-- Construction with a given FONT: 70_reset_and_hazards.md R260, and the model's own fields as the log names them. -/
def State.construct (font : FontTable) : State where
  v := Vector.replicate 16 0
  i := 0
  pc := 0x200
  sp := 0
  stack := Vector.replicate 16 0
  dt := 0
  disp := Vector.replicate 32 (Vector.replicate 64 false)
  key := Vector.replicate 16 false
  mem := ⟨font, []⟩
  run := .running
  rand := 0
  displayChanged := false
  unknown := none
  inputs := []
  steps := 0

/-- The machine right after reset, with the default FONT (70_reset_and_hazards.md R260, 10_state.md R41). -/
def State.reset : State := State.construct Font.standard

end Sys2Proof.Machine
end

