-- ==== Sys2Proof/Machine/Ops.lean ====
section
/-! DEFINITION. The operations over memory, the stack, the program counter and the halt state that the meanings share,
and the phases of a step around the handler (40_step_cycle.md). -/

namespace Sys2Proof.Machine

/-- How a step or a meaning ends. -/
abbrev Result := Host.Outcome State Fault Refusal

/-! Memory (20_memory.md). -/

/-- What an address that is not listed reads as: the reset contents of 10_state.md R40, FONT at 0x000..0x04F and 0
elsewhere. -/
def Memory.unlisted (m : Memory) (a : Nat) : Byte := if h : a < Config.fontLen then m.font[a] else 0

/-- The listed value of an address. -/
def lookupCell (a : Nat) : List Host.Cell → Option Byte
  | [] => none
  | (b, w) :: rest => if a = b then some w else lookupCell a rest

/-- List a value for an address, keeping the addresses strictly rising. -/
def insertCell (a : Nat) (v : Byte) : List Host.Cell → List Host.Cell
  | [] => [(a, v)]
  | (b, w) :: rest =>
    if a < b then (a, v) :: (b, w) :: rest
    else if a = b then (a, v) :: rest
    else (b, w) :: insertCell a v rest

/-- Take an address off the list. -/
def eraseCell (a : Nat) : List Host.Cell → List Host.Cell
  | [] => []
  | (b, w) :: rest => if a = b then rest else (b, w) :: eraseCell a rest

/-- `MemRead(a, 1)` for `a < 4096` (00_scope.md R10). At 4096 and above no cell is listed and it reads 0; no meaning
reads there, since the range check comes first (notes/assumptions/8.md). -/
def Memory.read (m : Memory) (a : Nat) : Byte := (lookupCell a m.cells).getD (m.unlisted a)

/-- `MemWrite(a, 1, v)` for `a < 4096` (00_scope.md R10), keeping the canonical form. At 4096 and above it writes
nothing; no meaning writes there, since the range check comes first (notes/assumptions/8.md). -/
def Memory.write (m : Memory) (a : Nat) (v : Byte) : Memory :=
  if a < Config.memSize then
    { m with cells := if v = m.unlisted a then eraseCell a m.cells else insertCell a v m.cells }
  else m

/-- Write bytes at rising addresses from `a`, lowest first (20_memory.md R72). -/
def Memory.writeBytes (m : Memory) (a : Nat) : List Byte → Memory
  | [] => m
  | b :: rest => (m.write a b).writeBytes (a + 1) rest

/-- The canonical form: addresses strictly rising and below 4096, no cell equal to the reset contents. -/
abbrev Memory.wf (m : Memory) : Prop :=
  m.cells.Pairwise (fun c d => c.1 < d.1) ∧
  ∀ c ∈ m.cells, c.1 < Config.memSize ∧ c.2 ≠ m.unlisted c.1

/-! Errors and halting (60_exceptions.md R241). -/

/-- `run <- Halted(reason)`. -/
def State.halt (reason : HaltReason) (s : State) : State := { s with run := .halted reason }

/-- `raise E(info)`: TAKING AN EXCEPTION, the one operation for it. The machine has no trap entry and no return from
one (R250, R251): the handler writes nothing, `PC` stays, and the machine is Halted for good (40_step_cycle.md R131). -/
def raise (reason : HaltReason) (s : State) : Result := .next (s.halt reason)

/-- The codes of 60_exceptions.md R240. -/
def HaltReason.code : HaltReason → Nat
  | .fetchOutOfBounds => 0
  | .pcOutOfBounds => 1
  | .stackOverflow => 2
  | .stackUnderflow => 3
  | .memoryFault _ => 4
  | .keyIndexFault _ => 5

/-! Control-transfer outcomes (40_step_cycle.md R126 to R128). -/

/-- What a handler tells the step about `PC` (40_step_cycle.md R126); `cont` is the rule's `Continue`. -/
inductive Control where
  | cont
  | skipNext
  | jumpTo (a : Word)
  | callTo (a : Word)
  | returnTo (a : Word)
  deriving DecidableEq, Repr

/-- The `PC` that phase 5 writes (40_step_cycle.md R127). Where a handler runs `PC <= 0xFFE`, so the sums are exact
(10_state.md R27; notes/assumptions/7.md). -/
def Control.target : Control → Word → Word
  | .cont, pc => pc + 2
  | .skipNext, pc => pc + 4
  | .jumpTo a, _ => a
  | .callTo a, _ => a
  | .returnTo a, _ => a

/-- Phase 5: the `PC` advance (40_step_cycle.md R127). -/
def State.advance (c : Control) (s : State) : State := { s with pc := c.target s.pc }

/-- Phase 6: the post-advance check (40_step_cycle.md R128). -/
def State.checkPc (s : State) : State :=
  { s with run := if Config.memSize ≤ s.pc.toNat then .halted .pcOutOfBounds else s.run }

/-- The end of a handler that raised no error: phases 5 and 6 (40_step_cycle.md R127, R128). -/
def finish (c : Control) (s : State) : Result := .next (s.advance c).checkPc

/-- Skip the next instruction if the condition holds (40_step_cycle.md R126). -/
def skipIf (c : Bool) : Control := if c then .skipNext else .cont

/-! The call stack (10_state.md R29, R30). -/

/-- Push: write the entry, then increment; `none` when the stack is full. -/
def State.push (a : Word) (s : State) : Option State :=
  if h : s.sp.val < 16 then
    some { s with stack := s.stack.set s.sp.val a, sp := ⟨s.sp.val + 1, by omega⟩ }
  else none

/-- Pop: decrement, then read; the entry is not cleared; `none` when the stack is empty. -/
def State.pop (s : State) : Option (Word × State) :=
  if h : 0 < s.sp.val then
    some (s.stack[s.sp.val - 1]'(by omega), { s with sp := ⟨s.sp.val - 1, by omega⟩ })
  else none

/-! The phases of a step before the handler (40_step_cycle.md R121 to R123). -/

/-- The arguments of the next step call: the first listed, or free values (notes/assumptions/1.md). -/
def State.nextInput (s : State) : StepInput :=
  match s.inputs with
  | [] => ⟨Config.freeKeys s.steps, Config.freeRand s.steps⟩
  | a :: _ => a

/-- Use up the arguments of one step call (notes/assumptions/1.md). -/
def State.takeInput (s : State) : State := { s with inputs := s.inputs.tail, steps := s.steps + 1 }

/-- Phase 1: `KEY <- keys`, all 16 entries (40_step_cycle.md R121); `rand` is held for the handler, and the result
fields of the step begin as false and none (R122, R131). -/
def State.latch (keys : Keys) (rand : Byte) (s : State) : State :=
  { s with key := keys, rand := rand, displayChanged := false, unknown := none }

/-- Phase 2: the big-endian word at `PC` and `PC + 1` from the current memory, or `none` if either is outside memory
(40_step_cycle.md R122, 20_memory.md R61, R75). -/
def State.fetch (s : State) : Option Word :=
  if Config.memSize ≤ s.pc.toNat + 1 then none
  else some (wordOfBytes (s.mem.read s.pc.toNat) (s.mem.read (s.pc.toNat + 1)))

/-- Phase 3: `if DT > 0 then DT <- DT - 1` (40_step_cycle.md R123). -/
def State.tickTimer (s : State) : State := { s with dt := if s.dt = 0 then 0 else s.dt - 1 }

/-! The step's result (40_step_cycle.md R120). -/

/-- `StepResult` of 40_step_cycle.md R120. -/
structure StepResult where
  halted : Bool
  screen : Display
  displayChanged : Bool
  haltReason : Option HaltReason
  unknown : Option Word
  deriving DecidableEq, Repr

/-- The reason a Halted machine carries. -/
def Run.reason : Run → Option HaltReason
  | .running => none
  | .halted r => some r

/-- The result the last step returned, read from the state after it (40_step_cycle.md R122, R129, R131). -/
def State.result (s : State) : StepResult where
  halted := s.run.reason.isSome
  screen := s.disp
  displayChanged := s.displayChanged
  haltReason := s.run.reason
  unknown := s.unknown

/-! Program load (70_reset_and_hazards.md R263, R264). -/

/-- Copy an image to 0x200, once, after construction and before the first step; an image over 3584 bytes is rejected
before any byte is written (60_exceptions.md R248). -/
def load (image : List Byte) (s : State) : Result :=
  if Config.progMax < image.length then .fault .loadError
  else .next { s with mem := s.mem.writeBytes Config.progBase image }

end Sys2Proof.Machine
end

