-- ==== Sys2Proof/Machine/Operands.lean ====
section
/-! DEFINITION. The operand forms (30_encoding.md R83): general registers, the zero-extended address, and the one
addressing mode, base `I` plus a small unsigned offset, with its range check (44_index_memory.md R204). -/

namespace Sys2Proof.Machine

/-- `V[x]` (00_scope.md R10). -/
def State.reg (s : State) (x : RegIdx) : Byte := s.v[x.val]

/-- `V[x] <- b` (00_scope.md R10). -/
def State.setReg (s : State) (x : RegIdx) (b : Byte) : State := { s with v := s.v.set x.val b }

/-- `zext_16(addr)` (00_scope.md R9, 30_encoding.md R83). -/
def zext16 (addr : Addr) : Word := addr.setWidth 16

/-- The register `V[j]` for `j` counted by DumpRegisters and LoadRegisters, `j <= x`. -/
def regAt (j : Nat) : RegIdx := ⟨j % 16, Nat.mod_lt j (by decide)⟩

/-- `check_range(base, count)` of 44_index_memory.md R204: the lowest address `base + j`, `j < count`, that is 4096 or
more, an exact sum, or `none` if there is none. -/
def outOfRange (base count : Nat) : Option Nat :=
  ((List.range count).map (fun j => base + j)).find? (fun a => decide (Config.memSize ≤ a))

/-- `V[0], ..., V[count-1]` in order. -/
def State.firstRegs (s : State) (count : Nat) : List Byte := (List.range count).map (fun j => s.reg (regAt j))

/-- `V[j] <- MemRead(base + j, 1)` for `j` in `0 .. count-1`, in that order (44_index_memory.md R206). -/
def State.loadRegs (s : State) (base count : Nat) : State :=
  (List.range count).foldl (fun t j => t.setReg (regAt j) (s.mem.read (base + j))) s

/-- The bytes stored at rising addresses from `base` (44_index_memory.md R203, R205). -/
def State.storeBytes (s : State) (base : Nat) (bytes : List Byte) : State :=
  { s with mem := s.mem.writeBytes base bytes }

end Sys2Proof.Machine
end

