-- ==== Sys2Proof/Machine/Flags.lean ====
section
/-! DEFINITION. The flag computations (10_state.md R31) and the unsigned results they go with (43_alu.md R170). -/

namespace Sys2Proof.Machine

/-- `trunc8` (00_scope.md R9). -/
def trunc8 (n : Nat) : Byte := BitVec.ofNat 8 n

/-- `v mod 256` for an exact difference (43_alu.md R179, R181). -/
def trunc8Int (n : Int) : Byte := BitVec.ofInt 8 n

/-- A flag as the value VF takes. -/
def flagByte (f : Bool) : Byte := if f then 1 else 0

/-- Carry out of an 8-bit sum: `a + b > 255` (43_alu.md R178). -/
def carryFlag (a b : Byte) : Bool := decide (255 < a.toNat + b.toNat)

/-- The strict comparison of SubReg and SubnReg, `a > b`; equal operands give 0 (43_alu.md R179, R181, 90_conflicts.md
C3). -/
def greaterFlag (a b : Byte) : Bool := decide (b.toNat < a.toNat)

/-- The bit ShiftRight shifts out, bit 0 (43_alu.md R180). -/
def lowBitFlag (a : Byte) : Bool := a.getLsbD 0

/-- The bit ShiftLeft shifts out, bit 7 (43_alu.md R182). -/
def highBitFlag (a : Byte) : Bool := a.getLsbD 7

/-- `VF <- f` (10_state.md R31). -/
def State.setFlag (s : State) (f : Bool) : State := s.setReg vf (flagByte f)

/-- The writes of a flag-writing ALU instruction, whose operands are already read: `V[x]`, then VF, so that for
`x = 15` VF keeps the flag (43_alu.md R171; notes/assumptions/11.md). -/
def State.setRegFlag (s : State) (x : RegIdx) (value : Byte) (f : Bool) : State := (s.setReg x value).setFlag f

end Sys2Proof.Machine
end

