-- ==== Sys2Proof/Machine/Alu.lean ====
section
/-! DEFINITION. ALU and register instructions: 43_alu.md R172 to R184. Each returns `Continue` and none can fail. -/

namespace Sys2Proof.Machine

/-- `SetImm(x,kk)`, R172. -/
def execSetImm (x : RegIdx) (kk : Byte) (s : State) : Result := finish .cont (s.setReg x kk)

/-- `AddImm(x,kk)`, R173: no flag. -/
def execAddImm (x : RegIdx) (kk : Byte) (s : State) : Result :=
  finish .cont (s.setReg x (trunc8 ((s.reg x).toNat + kk.toNat)))

/-- `Move(x,y)`, R174. -/
def execMove (x y : RegIdx) (s : State) : Result := finish .cont (s.setReg x (s.reg y))

/-- `Or(x,y)`, R175: VF is not reset. -/
def execOr (x y : RegIdx) (s : State) : Result := finish .cont (s.setReg x (s.reg x ||| s.reg y))

/-- `And(x,y)`, R176: VF is not reset. -/
def execAnd (x y : RegIdx) (s : State) : Result := finish .cont (s.setReg x (s.reg x &&& s.reg y))

/-- `Xor(x,y)`, R177: VF is not reset. -/
def execXor (x y : RegIdx) (s : State) : Result := finish .cont (s.setReg x (s.reg x ^^^ s.reg y))

/-- `AddReg(x,y)`, R178. -/
def execAddReg (x y : RegIdx) (s : State) : Result :=
  let a := s.reg x
  let b := s.reg y
  finish .cont (s.setRegFlag x (trunc8 (a.toNat + b.toNat)) (carryFlag a b))

/-- `SubReg(x,y)`, R179. -/
def execSubReg (x y : RegIdx) (s : State) : Result :=
  let a := s.reg x
  let b := s.reg y
  finish .cont (s.setRegFlag x (trunc8Int ((a.toNat : Int) - (b.toNat : Int))) (greaterFlag a b))

/-- `ShiftRight(x)`, R180: the source is `V[x]`. -/
def execShiftRight (x : RegIdx) (s : State) : Result :=
  let a := s.reg x
  finish .cont (s.setRegFlag x (a >>> 1) (lowBitFlag a))

/-- `SubnReg(x,y)`, R181. -/
def execSubnReg (x y : RegIdx) (s : State) : Result :=
  let a := s.reg x
  let b := s.reg y
  finish .cont (s.setRegFlag x (trunc8Int ((b.toNat : Int) - (a.toNat : Int))) (greaterFlag b a))

/-- `ShiftLeft(x)`, R182: the source is `V[x]`. -/
def execShiftLeft (x : RegIdx) (s : State) : Result :=
  let a := s.reg x
  finish .cont (s.setRegFlag x (a <<< 1) (highBitFlag a))

/-- `Random(x,kk)`, R184: `rand` is the free argument of the step (notes/assumptions/1.md, 2.md). -/
def execRandom (x : RegIdx) (kk : Byte) (s : State) : Result := finish .cont (s.setReg x (s.rand &&& kk))

end Sys2Proof.Machine
end

