-- ==== Sys2Proof/Machine/Flow.lean ====
section
/-! DEFINITION. Control transfer: 42_control.md R150 to R159. No meaning writes `PC` itself; it hands an outcome to
`finish`. -/

namespace Sys2Proof.Machine

/-- `Return`, R150: the RETURN of a call; StackUnderflow when `SP = 0` (60_exceptions.md R244). -/
def execRet (s : State) : Result :=
  match s.pop with
  | none => raise .stackUnderflow s
  | some (a, t) => finish (.returnTo a) t

/-- `Jump(addr)`, R151. -/
def execJump (addr : Addr) (s : State) : Result := finish (.jumpTo (zext16 addr)) s

/-- `Call(addr)`, R152: StackOverflow when `SP = 16` (60_exceptions.md R243). -/
def execCall (addr : Addr) (s : State) : Result :=
  match s.push (s.pc + 2) with
  | none => raise .stackOverflow s
  | some t => finish (.callTo (zext16 addr)) t

/-- `JumpIndexed(addr)`, R153: always `V[0]`, an exact sum that fits in 16 bits. -/
def execJumpIndexed (addr : Addr) (s : State) : Result :=
  finish (.jumpTo (BitVec.ofNat 16 ((s.reg 0).toNat + addr.toNat))) s

/-- `SkipEqImm(x,kk)`, R154. -/
def execSkipEqImm (x : RegIdx) (kk : Byte) (s : State) : Result := finish (skipIf (s.reg x == kk)) s

/-- `SkipNeImm(x,kk)`, R155. -/
def execSkipNeImm (x : RegIdx) (kk : Byte) (s : State) : Result := finish (skipIf (s.reg x != kk)) s

/-- `SkipEqReg(x,y)`, R156. -/
def execSkipEqReg (x y : RegIdx) (s : State) : Result := finish (skipIf (s.reg x == s.reg y)) s

/-- `SkipNeReg(x,y)`, R157. -/
def execSkipNeReg (x y : RegIdx) (s : State) : Result := finish (skipIf (s.reg x != s.reg y)) s

/-- `KEY[k]`, or `none` for an index of 16 or more (42_control.md R158, R159). -/
def State.keyAt (s : State) (k : Byte) : Option Bool := s.key[k.toNat]?

/-- `SkipIfKeyDown(x)`, R158: KeyIndexFault when `V[x] >= 16` (60_exceptions.md R246). -/
def execSkipIfKeyDown (x : RegIdx) (s : State) : Result :=
  match s.keyAt (s.reg x) with
  | none => raise (.keyIndexFault (s.reg x)) s
  | some held => finish (skipIf held) s

/-- `SkipIfKeyUp(x)`, R159: KeyIndexFault when `V[x] >= 16` (60_exceptions.md R246). -/
def execSkipIfKeyUp (x : RegIdx) (s : State) : Result :=
  match s.keyAt (s.reg x) with
  | none => raise (.keyIndexFault (s.reg x)) s
  | some held => finish (skipIf (!held)) s

end Sys2Proof.Machine
end

