-- ==== Sys2Proof/Machine/Index.lean ====
section
/-! DEFINITION. Index register and memory instructions: 44_index_memory.md R200 to R206. -/

namespace Sys2Proof.Machine

/-- `SetIndex(addr)`, R200. -/
def execSetIndex (addr : Addr) (s : State) : Result := finish .cont { s with i := zext16 addr }

/-- `AddIndex(x)`, R201: modulo 65536, no flag. -/
def execAddIndex (x : RegIdx) (s : State) : Result :=
  finish .cont { s with i := BitVec.ofNat 16 (s.i.toNat + (s.reg x).toNat) }

/-- `LoadFontAddr(x)`, R202: the whole byte, not its low nibble. -/
def execLoadFontAddr (x : RegIdx) (s : State) : Result :=
  finish .cont { s with i := BitVec.ofNat 16 ((s.reg x).toNat * 5) }

/-- The three decimal digits, hundreds first (R203). -/
def bcdDigits (v : Byte) : List Byte := [trunc8 (v.toNat / 100), trunc8 (v.toNat / 10 % 10), trunc8 (v.toNat % 10)]

/-- `StoreBCD(x)`, R203. -/
def execStoreBCD (x : RegIdx) (s : State) : Result :=
  match outOfRange s.i.toNat 3 with
  | some a => raise (.memoryFault a) s
  | none => finish .cont (s.storeBytes s.i.toNat (bcdDigits (s.reg x)))

/-- `DumpRegisters(x)`, R205: `I` is unchanged. -/
def execDumpRegisters (x : RegIdx) (s : State) : Result :=
  match outOfRange s.i.toNat (x.val + 1) with
  | some a => raise (.memoryFault a) s
  | none => finish .cont (s.storeBytes s.i.toNat (s.firstRegs (x.val + 1)))

/-- `LoadRegisters(x)`, R206: `I` is unchanged. -/
def execLoadRegisters (x : RegIdx) (s : State) : Result :=
  match outOfRange s.i.toNat (x.val + 1) with
  | some a => raise (.memoryFault a) s
  | none => finish .cont (s.loadRegs s.i.toNat (x.val + 1))

end Sys2Proof.Machine
end

