-- ==== Sys2Proof/Machine/Screen.lean ====
section
/-! DEFINITION. The display instructions: 41_display.md R140, R141. -/

namespace Sys2Proof.Machine

/-- The blank display. -/
def Display.blank : Display := Vector.replicate 32 (Vector.replicate 64 false)

/-- `DISP[y][x]` (10_state.md R39). -/
def Display.pixel (d : Display) (x : Fin 64) (y : Fin 32) : Bool := d[y.val][x.val]

/-- `DISP[y][x] <- DISP[y][x] ^ b`. -/
def Display.xorPixel (d : Display) (x : Fin 64) (y : Fin 32) (b : Bool) : Display :=
  d.set y.val (d[y.val].set x.val (d[y.val][x.val] ^^ b))

/-- `(a + bit) mod 64`, the column (41_display.md R141). -/
def column (a : Byte) (bit : Nat) : Fin 64 := ⟨(a.toNat + bit) % 64, Nat.mod_lt _ (by decide)⟩

/-- `(b + row) mod 32`, the row (41_display.md R141). -/
def rowOf (b : Byte) (row : Nat) : Fin 32 := ⟨(b.toNat + row) % 32, Nat.mod_lt _ (by decide)⟩

/-- Sprite bit number `bit` of a byte, counted from the most significant (41_display.md R141). -/
def spriteBit (byte : Byte) (bit : Nat) : Bool := byte.getLsbD (7 - bit)

/-- One pixel of a Draw: note a collision, then XOR (41_display.md R141). The pair is the display and VF. -/
def drawBit (a b : Byte) (row : Nat) (byte : Byte) (acc : Display × Bool) (bit : Nat) : Display × Bool :=
  ( acc.1.xorPixel (column a bit) (rowOf b row) (spriteBit byte bit),
    acc.2 || (spriteBit byte bit && acc.1.pixel (column a bit) (rowOf b row)) )

/-- One row of a Draw, bits 0..7. -/
def drawRow (m : Memory) (base : Nat) (a b : Byte) (acc : Display × Bool) (row : Nat) : Display × Bool :=
  (List.range 8).foldl (drawBit a b row (m.read (base + row))) acc

/-- The rows 0..n-1 of a Draw; VF starts at 0 (41_display.md R141). -/
def drawSprite (m : Memory) (base : Nat) (a b : Byte) (n : Nat) (d : Display) : Display × Bool :=
  (List.range n).foldl (drawRow m base a b) (d, false)

/-- The writes of a Draw that raises no error. -/
def State.drawAt (s : State) (a b : Byte) (n : Nat) : State :=
  let r := drawSprite s.mem s.i.toNat a b n s.disp
  { s.setFlag r.2 with disp := r.1, displayChanged := true }

/-- `Clear`, 41_display.md R140; `display_changed` by 40_step_cycle.md R129. -/
def execClear (s : State) : Result := finish .cont { s with disp := Display.blank, displayChanged := true }

/-- `Draw(x,y,n)`, 41_display.md R141: the coordinates are the registers before VF is written. -/
def execDraw (x y : RegIdx) (n : Fin 16) (s : State) : Result :=
  match outOfRange s.i.toNat n.val with
  | some a => raise (.memoryFault a) s
  | none => finish .cont (s.drawAt (s.reg x) (s.reg y) n.val)

end Sys2Proof.Machine
end

