-- ==== Sys2Proof/Machine/Timer.lean ====
section
/-! DEFINITION. Delay-timer instructions and the Unknown variant: 45_timer_unknown.md R220 to R222. -/

namespace Sys2Proof.Machine

/-- `GetDelay(x)`, R220: `DT` after this step's decrement. -/
def execGetDelay (x : RegIdx) (s : State) : Result := finish .cont (s.setReg x s.dt)

/-- `SetDelay(x)`, R221: the write follows this step's decrement. -/
def execSetDelay (x : RegIdx) (s : State) : Result := finish .cont { s with dt := s.reg x }

/-- `Unknown(w)`, R222: a no-op that reports the word (60_exceptions.md R242). -/
def execUnknown (w : Word) (s : State) : Result := finish .cont { s with unknown := some w }

end Sys2Proof.Machine
end

