-- ==== Sys2Proof/Machine/Dispatch.lean ====
section
/-! DEFINITION. Dispatch to the handlers (40_step_cycle.md R125), one arm per constructor. -/

namespace Sys2Proof.Machine

def exec (i : Instr) (s : State) : Host.Outcome State Fault Refusal :=
  match i with
  | .clear => Sys2Proof.Machine.execClear s
  | .ret => Sys2Proof.Machine.execRet s
  | .jump addr => Sys2Proof.Machine.execJump addr s
  | .call addr => Sys2Proof.Machine.execCall addr s
  | .skipEqImm x kk => Sys2Proof.Machine.execSkipEqImm x kk s
  | .skipNeImm x kk => Sys2Proof.Machine.execSkipNeImm x kk s
  | .skipEqReg x y => Sys2Proof.Machine.execSkipEqReg x y s
  | .setImm x kk => Sys2Proof.Machine.execSetImm x kk s
  | .addImm x kk => Sys2Proof.Machine.execAddImm x kk s
  | .move x y => Sys2Proof.Machine.execMove x y s
  | .or x y => Sys2Proof.Machine.execOr x y s
  | .and x y => Sys2Proof.Machine.execAnd x y s
  | .xor x y => Sys2Proof.Machine.execXor x y s
  | .addReg x y => Sys2Proof.Machine.execAddReg x y s
  | .subReg x y => Sys2Proof.Machine.execSubReg x y s
  | .shiftRight x => Sys2Proof.Machine.execShiftRight x s
  | .subnReg x y => Sys2Proof.Machine.execSubnReg x y s
  | .shiftLeft x => Sys2Proof.Machine.execShiftLeft x s
  | .skipNeReg x y => Sys2Proof.Machine.execSkipNeReg x y s
  | .setIndex addr => Sys2Proof.Machine.execSetIndex addr s
  | .jumpIndexed addr => Sys2Proof.Machine.execJumpIndexed addr s
  | .random x kk => Sys2Proof.Machine.execRandom x kk s
  | .draw x y n => Sys2Proof.Machine.execDraw x y n s
  | .skipIfKeyDown x => Sys2Proof.Machine.execSkipIfKeyDown x s
  | .skipIfKeyUp x => Sys2Proof.Machine.execSkipIfKeyUp x s
  | .getDelay x => Sys2Proof.Machine.execGetDelay x s
  | .setDelay x => Sys2Proof.Machine.execSetDelay x s
  | .addIndex x => Sys2Proof.Machine.execAddIndex x s
  | .loadFontAddr x => Sys2Proof.Machine.execLoadFontAddr x s
  | .storeBCD x => Sys2Proof.Machine.execStoreBCD x s
  | .dumpRegisters x => Sys2Proof.Machine.execDumpRegisters x s
  | .loadRegisters x => Sys2Proof.Machine.execLoadRegisters x s
  | .unknown w => Sys2Proof.Machine.execUnknown w s

end Sys2Proof.Machine
end

