-- ==== Sys2Proof/Machine/Step.lean ====
section
/-! DEFINITION. The step of 40_step_cycle.md R120 to R131. -/

namespace Sys2Proof.Machine

/-- `step(s, keys, rand)` of 40_step_cycle.md R120: refused when Halted (R130); phase 1 (R121); a failed fetch halts
(R122); else phase 3 (R123), then the handler of the decoded word (R124, R125) with phases 5 and 6. The result `r` is
`State.result` of the next state. -/
def stepWith (keys : Keys) (rand : Byte) (s : State) : Host.Outcome State Fault Refusal :=
  match s.run with
  | .halted _ => .refused .stepWhileHalted
  | .running =>
    match (s.latch keys rand).fetch with
    | none => raise .fetchOutOfBounds (s.latch keys rand)
    | some w => exec (decodeWord w) (s.latch keys rand).tickTimer

/-- One step call, its arguments those that the state lists next, or free values (notes/assumptions/1.md). -/
def step (s : State) : Host.Outcome State Fault Refusal :=
  stepWith s.nextInput.keys s.nextInput.rand s.takeInput

/-- `s` with the instruction word that opcode_table.json numbers `w` stored where the next step fetches: its high byte
at `PC`, its low byte at `PC + 1` (20_memory.md R61). -/
def State.withFetchWord (s : State) (nbits w : Nat) : State :=
  s.storeBytes s.pc.toNat (bytesOfWord (tableWord nbits w))

end Sys2Proof.Machine
end

