-- ==== Sys2Proof/Safety.lean ====
section
/-! DEFINITION. What counts as a safe run, and the words claims are stated in: normal and fatal ends, the machine
invariant, reachability, and frames. -/

namespace Sys2Proof.Machine

/-- A normal end and not an error (60_exceptions.md R247). -/
def HaltReason.normal : HaltReason → Bool
  | .fetchOutOfBounds => true
  | .pcOutOfBounds => true
  | .stackOverflow => false
  | .stackUnderflow => false
  | .memoryFault _ => false
  | .keyIndexFault _ => false

/-- The run ended normally (40_step_cycle.md R133, 60_exceptions.md R247). -/
def State.endedNormally (s : State) : Bool :=
  match s.run with
  | .running => false
  | .halted r => r.normal

/-- The run ended with a fatal error (40_step_cycle.md R133, 60_exceptions.md R241). -/
def State.endedFatally (s : State) : Bool :=
  match s.run with
  | .running => false
  | .halted r => !r.normal

/-- What `run` says holds of the state: a Running machine has its `PC` in memory (10_state.md R32), and a Halted one
is where its reason says (60_exceptions.md R240). -/
def State.runTruthful (s : State) : Prop :=
  match s.run with
  | .running => s.pc.toNat < Config.memSize
  | .halted .fetchOutOfBounds => s.pc.toNat = 0xFFF
  | .halted .pcOutOfBounds => Config.memSize ≤ s.pc.toNat
  | .halted .stackOverflow => s.sp.val = 16 ∧ s.pc.toNat ≤ 0xFFE
  | .halted .stackUnderflow => s.sp.val = 0 ∧ s.pc.toNat ≤ 0xFFE
  | .halted (.memoryFault a) => a = max s.i.toNat Config.memSize ∧ s.pc.toNat ≤ 0xFFE
  | .halted (.keyIndexFault k) => 16 ≤ k.toNat ∧ s.pc.toNat ≤ 0xFFE

/-- The invariant of every state a run reaches: memory in its canonical form, `run` truthful, `PC` at most the bound
that 10_state.md R27 derives, and every stack entry a possible return address, at most 0x1000 (42_control.md R152). -/
structure State.Inv (s : State) : Prop where
  memCanonical : s.mem.wf
  runTruthful : s.runTruthful
  pcBound : s.pc.toNat ≤ 0x10FE
  stackBound : ∀ j : Fin 16, (s.stack[j.val]).toNat ≤ 0x1000

/-- `t` is reached from `s` by step calls, each with any arguments (40_step_cycle.md R133). -/
inductive Reaches (s : State) : State → Prop where
  | here : Reaches s s
  | step {t u : State} (keys : Keys) (rand : Byte) (before : Reaches s t) (next : stepWith keys rand t = .next u) :
      Reaches s u

/-- A safe run up to `t`: reached, and no fatal error on the way; a Halted machine steps no more, so it is enough
that `t` did not end with one (40_step_cycle.md R130, R133). -/
def SafeRun (s t : State) : Prop := Reaches s t ∧ t.endedFatally = false

/-- The parts of the state, other than the general registers, `PC` and `run`, that a frame speaks of. -/
inductive Part where
  | index
  | callStack
  | timer
  | display
  | keys
  | memory
  | report
  | arguments
  deriving DecidableEq, Repr

/-- The part is the same in both states; memory through the read of one byte, at every address. -/
def Part.same (s t : State) : Part → Prop
  | .index => t.i = s.i
  | .callStack => t.sp = s.sp ∧ t.stack = s.stack
  | .timer => t.dt = s.dt
  | .display => t.disp = s.disp
  | .keys => t.key = s.key
  | .memory => t.mem.font = s.mem.font ∧ ∀ a, t.mem.read a = s.mem.read a
  | .report => t.displayChanged = s.displayChanged ∧ t.unknown = s.unknown
  | .arguments => t.rand = s.rand ∧ t.inputs = s.inputs ∧ t.steps = s.steps

/-- The frame: every part but the listed ones, and every general register but the listed ones, is unchanged. -/
def Frame (parts : List Part) (regs : List RegIdx) (s t : State) : Prop :=
  (∀ p, p ∉ parts → p.same s t) ∧ ∀ r, r ∉ regs → t.reg r = s.reg r

end Sys2Proof.Machine
end

