-- ==== Sys2Proof/Certificates/Slice0/Obligations.lean ====
section
/-! DEFINITION. The statements for the provers, and the words they share. -/

/-! ## The words the statements share -/

namespace Sys2Proof.Machine.Claims

/-- The word `gggg aaaa aaaa aaaa` (30_encoding.md R80, R82). -/
def wordA (g : Nat) (addr : Addr) : Word := BitVec.ofNat 16 (g * 4096 + addr.toNat)

/-- The word `gggg xxxx kkkk kkkk` (30_encoding.md R80, R82). -/
def wordXK (g : Nat) (x : RegIdx) (kk : Byte) : Word := BitVec.ofNat 16 (g * 4096 + x.val * 256 + kk.toNat)

/-- The word `gggg xxxx yyyy nnnn` (30_encoding.md R80, R82). -/
def wordXYN (g : Nat) (x y n : Fin 16) : Word := BitVec.ofNat 16 (g * 4096 + x.val * 256 + y.val * 16 + n.val)

/-- The big-endian word of memory at `a` and `a + 1` (20_memory.md R61). -/
def wordAt (m : Memory) (a : Nat) : Word := BitVec.ofNat 16 ((m.read a).toNat * 256 + (m.read (a + 1)).toNat)

/-- The instruction a step at this state runs, if its fetch succeeds (40_step_cycle.md R122, R124). -/
def current (s : State) : Instr := decodeWord (wordAt s.mem s.pc.toNat)

/-- `DT` after phase 3 (40_step_cycle.md R123). -/
def ticked (d : Byte) : Byte := if d = 0 then 0 else d - 1

/-- What the handler runs on: the state after phases 1 to 3 of a step with these arguments (40_step_cycle.md R121,
R123); the last three fields are the model's own (notes/assumptions/2.md, 3.md). -/
def atHandler (keys : Keys) (rand : Byte) (s : State) : State :=
  { s with key := keys, dt := ticked s.dt, rand := rand, displayChanged := false, unknown := none }

/-- How many bytes of memory, from `I` up, the instruction accesses (20_memory.md R68). -/
def accessCount : Instr → Nat
  | .draw _ _ n => n.val
  | .storeBCD _ => 3
  | .dumpRegisters x => x.val + 1
  | .loadRegisters x => x.val + 1
  | .clear | .ret | .jump _ | .call _ | .skipEqImm _ _ | .skipNeImm _ _ | .skipEqReg _ _ | .setImm _ _
  | .addImm _ _ | .move _ _ | .or _ _ | .and _ _ | .xor _ _ | .addReg _ _ | .subReg _ _ | .shiftRight _
  | .subnReg _ _ | .shiftLeft _ | .skipNeReg _ _ | .setIndex _ | .jumpIndexed _ | .random _ _
  | .skipIfKeyDown _ | .skipIfKeyUp _ | .getDelay _ | .setDelay _ | .addIndex _ | .loadFontAddr _ | .unknown _ => 0

/-- How many bytes of memory, from `I` up, the instruction writes (20_memory.md R68). -/
def storeCount : Instr → Nat
  | .storeBCD _ => 3
  | .dumpRegisters x => x.val + 1
  | .draw _ _ _ | .loadRegisters _
  | .clear | .ret | .jump _ | .call _ | .skipEqImm _ _ | .skipNeImm _ _ | .skipEqReg _ _ | .setImm _ _
  | .addImm _ _ | .move _ _ | .or _ _ | .and _ _ | .xor _ _ | .addReg _ _ | .subReg _ _ | .shiftRight _
  | .subnReg _ _ | .shiftLeft _ | .skipNeReg _ _ | .setIndex _ | .jumpIndexed _ | .random _ _
  | .skipIfKeyDown _ | .skipIfKeyUp _ | .getDelay _ | .setDelay _ | .addIndex _ | .loadFontAddr _ | .unknown _ => 0

/-- The general registers the instruction may write: the table of 10_state.md R24. -/
def mayWrite : Instr → RegIdx → Prop
  | .setImm x _, r | .random x _, r | .addImm x _, r | .move x _, r | .or x _, r | .and x _, r | .xor x _, r
  | .getDelay x, r => r = x
  | .addReg x _, r | .subReg x _, r | .subnReg x _, r | .shiftRight x, r | .shiftLeft x, r => r = x ∨ r = vf
  | .draw _ _ _, r => r = vf
  | .loadRegisters x, r => r ≤ x
  | .clear, _ | .ret, _ | .jump _, _ | .call _, _ | .skipEqImm _ _, _ | .skipNeImm _ _, _ | .skipEqReg _ _, _
  | .skipNeReg _ _, _ | .setIndex _, _ | .jumpIndexed _, _ | .skipIfKeyDown _, _ | .skipIfKeyUp _, _
  | .setDelay _, _ | .addIndex _, _ | .loadFontAddr _, _ | .storeBCD _, _ | .dumpRegisters _, _ | .unknown _, _ =>
    False

/-- The advance of a skip: 4 when the condition holds, else 2 (40_step_cycle.md R126, R127). -/
def skipsIf (c : Prop) (s t : State) : Prop :=
  (c → t.pc.toNat = s.pc.toNat + 4) ∧ (¬ c → t.pc.toNat = s.pc.toNat + 2)

/-- The `PC` after an instruction that raised no error, by its outcome (40_step_cycle.md R126, R127), sums exact. -/
def advancesAs (s t : State) : Instr → Prop
  | .jump addr => t.pc.toNat = addr.toNat
  | .call addr => t.pc.toNat = addr.toNat
  | .jumpIndexed addr => t.pc.toNat = (s.reg 0).toNat + addr.toNat
  | .ret => ∃ j : Fin 16, j.val + 1 = s.sp.val ∧ t.pc = s.stack[j.val]
  | .skipEqImm x kk => skipsIf (s.reg x = kk) s t
  | .skipNeImm x kk => skipsIf (s.reg x ≠ kk) s t
  | .skipEqReg x y => skipsIf (s.reg x = s.reg y) s t
  | .skipNeReg x y => skipsIf (s.reg x ≠ s.reg y) s t
  | .skipIfKeyDown x => skipsIf (s.key[(s.reg x).toNat]? = some true) s t
  | .skipIfKeyUp x => skipsIf (s.key[(s.reg x).toNat]? = some false) s t
  | .clear | .setImm _ _ | .addImm _ _ | .move _ _ | .or _ _ | .and _ _ | .xor _ _ | .addReg _ _ | .subReg _ _
  | .shiftRight _ | .subnReg _ _ | .shiftLeft _ | .setIndex _ | .random _ _ | .draw _ _ _ | .getDelay _
  | .setDelay _ | .addIndex _ | .loadFontAddr _ | .storeBCD _ | .dumpRegisters _ | .loadRegisters _ | .unknown _ =>
    t.pc.toNat = s.pc.toNat + 2

/-- The state of a machine that a fatal error halted: nothing but `run` differs (60_exceptions.md R241). -/
def haltedWith (r : HaltReason) (s : State) : State := { s with run := .halted r }

end Sys2Proof.Machine.Claims

section
open Sys2Proof Sys2Proof.Machine Sys2Proof.Machine.Claims

/-! ## The decoder -/

/-- 30_encoding.md R92: the two laws and the canonical encodings (the spec's own choice, D19, so 'derived'). -/
def Obligations.DecodeOfEncodeIsTheInstruction : Prop :=
  (∀ i : Instr, i.wf = true →
    decodeWord (encode i) = i ∧ ∀ rest, decode (encodeBytes i ++ rest) = .ok (i, rest)) ∧
  (∀ w, (decodeWord w).wf = true) ∧
  encode .clear = 0x00E0 ∧ encode .ret = 0x00EE ∧
  (∀ x y, encode (.skipEqReg x y) = wordXYN 0x5 x y 0 ∧ encode (.skipNeReg x y) = wordXYN 0x9 x y 0) ∧
  (∀ x, encode (.shiftRight x) = wordXYN 0x8 x 0 0x6 ∧ encode (.shiftLeft x) = wordXYN 0x8 x 0 0xE) ∧
  ∀ w, encode (.unknown w) = w

/-- 30_encoding.md R85, R90: a word decodes to a row's variant exactly when it matches the row's bits under its mask,
to `Unknown` exactly when no row matches, and no two rows overlap (the overlap clause is marked derived in R90). -/
def Obligations.OpcodeMapSaysWhatIsDecoded : Prop :=
  ∀ w : Word,
    (∀ row ∈ opcodeMap, w &&& row.mask = row.bits ↔ (decodeWord w).mnemonic = row.mnemonic) ∧
    ((∃ v, decodeWord w = .unknown v) ↔ ∀ row ∈ opcodeMap, w &&& row.mask ≠ row.bits) ∧
    ∀ row ∈ opcodeMap, ∀ row' ∈ opcodeMap, w &&& row.mask = row.bits → w &&& row'.mask = row'.bits → row = row'

/-- 30_encoding.md R89 (marked derived there): `Unknown` is decoded from the words of R89's table, and carries the
fetched word (R84, D11). -/
def Obligations.UnknownWordsAreExactlyTheTable : Prop :=
  (∀ w, decodeWord w = .unknown w ↔ unknownWord w = true) ∧ ∀ w v, decodeWord w = .unknown v → v = w

/-- 30_encoding.md R86, R87, R88: the bits the decoder does not examine. -/
def Obligations.IgnoredBitsAreNotExamined : Prop :=
  (∀ x y, decodeWord (wordXYN 0x0 x y 0x0) = .clear ∧ decodeWord (wordXYN 0x0 x y 0xE) = .ret) ∧
  (∀ x y n, n ≠ 0x0 → n ≠ 0xE → ∃ w, decodeWord (wordXYN 0x0 x y n) = .unknown w) ∧
  (∀ x y n, decodeWord (wordXYN 0x5 x y n) = .skipEqReg x y ∧ decodeWord (wordXYN 0x9 x y n) = .skipNeReg x y) ∧
  ∀ x y, decodeWord (wordXYN 0x8 x y 0x6) = .shiftRight x ∧ decodeWord (wordXYN 0x8 x y 0xE) = .shiftLeft x

/-- A few words of 95_test_vectors.md L2-A, one or more of each family. -/
def Obligations.SampleWordsDecode : Prop :=
  decodeWord 0x0AB0 = .clear ∧ decodeWord 0x012E = .ret ∧ decodeWord 0x1501 = .jump 0x501 ∧
  decodeWord 0x3A7F = .skipEqImm 0xA 0x7F ∧ decodeWord 0x8124 = .addReg 1 2 ∧ decodeWord 0x81F6 = .shiftRight 1 ∧
  decodeWord 0xA300 = .setIndex 0x300 ∧ decodeWord 0xDFFF = .draw 0xF 0xF 0xF ∧ decodeWord 0xE19E = .skipIfKeyDown 1 ∧
  decodeWord 0xF433 = .storeBCD 4 ∧ decodeWord 0xF00A = .unknown 0xF00A

/-- The model's own placing of a word (notes/assumptions/6.md): the next fetch reads it, and no other byte changes. -/
def Obligations.WithFetchWordIsFetchedNext : Prop :=
  ∀ (s : State) (w : Nat), s.mem.wf → s.pc.toNat ≤ 0xFFE →
    wordAt (s.withFetchWord 16 w).mem s.pc.toNat = BitVec.ofNat 16 w ∧
    decodeTableWord 16 w = some (current (s.withFetchWord 16 w)) ∧
    (∀ a, a ≠ s.pc.toNat → a ≠ s.pc.toNat + 1 → (s.withFetchWord 16 w).mem.read a = s.mem.read a) ∧
    { s.withFetchWord 16 w with mem := s.mem } = s

/-! ## Reset, load, and the step -/

/-- 70_reset_and_hazards.md R260: the reset value of every field, for every FONT. -/
def Obligations.ConstructionGivesTheResetValues : Prop :=
  (∃ font, State.reset = State.construct font) ∧
  ∀ (font : FontTable) (s : State), s = State.construct font →
    (∀ x, s.reg x = 0) ∧ s.i = 0 ∧ s.pc = 0x200 ∧ s.sp.val = 0 ∧ (∀ j : Fin 16, s.stack[j.val] = 0) ∧ s.dt = 0 ∧
    (∀ x y, s.disp.pixel x y = false) ∧ (∀ k : Fin 16, s.key[k.val] = false) ∧
    (∀ a : Fin 80, s.mem.read a.val = font[a.val]) ∧ (∀ a, 80 ≤ a → a < 4096 → s.mem.read a = 0) ∧ s.run = .running

/-- 70_reset_and_hazards.md R263, R264: load copies the image to 0x200 and changes nothing else; an image over 3584
bytes is rejected; the empty image is accepted and the first step's word is then `Clear`. -/
def Obligations.LoadCopiesTheImageOrRejectsIt : Prop :=
  (∀ (image : List Byte) (s : State), s.mem.wf → image.length ≤ 3584 →
    ∃ t, load image s = .next t ∧ (∀ (j : Nat) (h : j < image.length), t.mem.read (0x200 + j) = image[j]) ∧
      (∀ a, a < 0x200 ∨ 0x200 + image.length ≤ a → t.mem.read a = s.mem.read a) ∧
      t.mem.font = s.mem.font ∧ { t with mem := s.mem } = s) ∧
  (∀ (image : List Byte) (s : State), 3584 < image.length → load image s = .fault .loadError) ∧
  ∀ (font : FontTable), ∃ t, load [] (State.construct font) = .next t ∧ wordAt t.mem t.pc.toNat = 0x0000 ∧
    current t = .clear

/-- 40_step_cycle.md R121, R123, R124: a step whose fetch succeeds runs the handler of the big-endian word at `PC` on
the state with the keys latched and the timer decremented; the handler's `finish` moves `PC`. -/
def Obligations.StepRunsTheDecodedInstruction : Prop :=
  ∀ (keys : Keys) (rand : Byte) (s : State), s.run = .running → s.pc.toNat ≤ 0xFFE →
    stepWith keys rand s = exec (current s) (atHandler keys rand s) ∧
    ∀ i rest, decode (s.mem.read s.pc.toNat :: s.mem.read (s.pc.toNat + 1) :: rest) = .ok (i, rest) → i = current s

/-- The model's own form of the step's arguments (notes/assumptions/1.md): `step` is `stepWith` at the first listed
arguments, which it takes off the list, or at free values when none is listed; whatever these are, one step call more
is counted. -/
def Obligations.StepTakesListedOrFreeArguments : Prop :=
  (∀ (s : State) (a : StepInput) (rest : List StepInput), s.inputs = a :: rest →
    step s = stepWith a.keys a.rand { s with inputs := rest, steps := s.steps + 1 }) ∧
  ∀ s : State, s.inputs = [] →
    step s = stepWith (Config.freeKeys s.steps) (Config.freeRand s.steps) { s with inputs := [], steps := s.steps + 1 }

/-- 40_step_cycle.md R122: a failed fetch halts, keeps the key latch write, and does nothing else. -/
def Obligations.FailedFetchHaltsTheCycle : Prop :=
  ∀ (keys : Keys) (rand : Byte) (s : State), s.run = .running → 0xFFF ≤ s.pc.toNat →
    ∃ t, stepWith keys rand s = .next t ∧ t.run = .halted .fetchOutOfBounds ∧ t.key = keys ∧ t.dt = s.dt ∧
      t.pc = s.pc ∧ Frame [.keys, .report, .arguments] [] s t ∧
      t.result = ⟨true, s.disp, false, some .fetchOutOfBounds, none⟩

/-- 40_step_cycle.md R130 (decision D13): a step call on a Halted machine is refused. -/
def Obligations.StepOnHaltedMachineIsRefused : Prop :=
  ∀ (s : State) (r : HaltReason), s.run = .halted r →
    step s = .refused .stepWhileHalted ∧ ∀ keys rand, stepWith keys rand s = .refused .stepWhileHalted

/-- 40_step_cycle.md R120, R131, 60_exceptions.md R241: a step call on a Running machine always yields a next state,
with any arguments and from any state; FONT never changes. -/
def Obligations.RunningStepAlwaysAnswersNext : Prop :=
  ∀ (keys : Keys) (rand : Byte) (s : State), s.run = .running →
    ∃ t, stepWith keys rand s = .next t ∧ t.mem.font = s.mem.font

/-- 40_step_cycle.md R123: the timer counts one tick in every step whose fetch succeeds, before the handler and also
when the handler raises a fatal error; only SetDelay writes it after that. -/
def Obligations.TimerTicksInEveryFetchedStep : Prop :=
  ∀ (keys : Keys) (rand : Byte) (s t : State), s.run = .running → stepWith keys rand s = .next t →
    (0xFFF ≤ s.pc.toNat → t.dt = s.dt) ∧
    (s.pc.toNat ≤ 0xFFE →
      (∀ x, current s = .setDelay x → t.dt = s.reg x) ∧
      ((∀ x, current s ≠ .setDelay x) → t.dt.toNat = s.dt.toNat - 1))

/-- 10_state.md R36, 40_step_cycle.md R121: every step replaces all 16 keys by its argument, and no instruction
writes them. -/
def Obligations.KeyLatchIsTheStepArgument : Prop :=
  (∀ (keys : Keys) (rand : Byte) (s t : State), stepWith keys rand s = .next t → t.key = keys) ∧
  ∀ (i : Instr) (s t : State), exec i s = .next t → t.key = s.key

/-- 10_state.md R36, R37, 40_step_cycle.md R132: only Random reads the free byte of the step, and only the two key skips
read the keys: any other step ends the same whatever they are, but for the latch (and the model's own field `rand`,
notes/assumptions/2.md), which hold the arguments themselves. -/
def Obligations.ArgumentsAreReadByTheirInstructionsAlone : Prop :=
  ∀ (keys keys' : Keys) (rand rand' : Byte) (s t : State), stepWith keys rand s = .next t →
    ((∀ x kk, current s ≠ .random x kk) → stepWith keys rand' s = .next { t with rand := rand' }) ∧
    ((∀ x, current s ≠ .skipIfKeyDown x) → (∀ x, current s ≠ .skipIfKeyUp x) →
      stepWith keys' rand s = .next { t with key := keys' })

/-- 40_step_cycle.md R126, R127: the `PC` after an instruction that raised no error, variant by variant. -/
def Obligations.PcAdvancesByTheOutcome : Prop :=
  ∀ (i : Instr) (s t : State), s.run = .running → s.pc.toNat ≤ 0xFFE → exec i s = .next t →
    t.endedFatally = false → advancesAs s t i

/-- 40_step_cycle.md R128 (decision D17): after an instruction that raised no error the machine is Halted with
PcOutOfBounds exactly when the advanced `PC` is 4096 or more, and is otherwise Running as before. -/
def Obligations.PostAdvanceCheckHaltsOutsideMemory : Prop :=
  ∀ (i : Instr) (s t : State), s.run = .running → exec i s = .next t → t.endedFatally = false →
    (4096 ≤ t.pc.toNat → t.run = .halted .pcOutOfBounds) ∧ (t.pc.toNat < 4096 → t.run = .running)

/-- 40_step_cycle.md R122, R129, R131 (decisions D2, D10, D11): the result of every step. -/
def Obligations.StepResultReportsTheStep : Prop :=
  ∀ (keys : Keys) (rand : Byte) (s t : State), s.run = .running → stepWith keys rand s = .next t →
    (t.result.halted = true ↔ t.run ≠ .running) ∧ t.result.screen = t.disp ∧
    (∀ r, t.result.haltReason = some r ↔ t.run = .halted r) ∧
    (t.result.displayChanged = true ↔
      s.pc.toNat ≤ 0xFFE ∧ t.endedFatally = false ∧ (current s = .clear ∨ ∃ x y n, current s = .draw x y n)) ∧
    ∀ w, t.result.unknown = some w ↔ s.pc.toNat ≤ 0xFFE ∧ current s = .unknown w

/-- 40_step_cycle.md R131, 60_exceptions.md R241 (decision D8): a fatal error leaves everything as it was before the
handler; only the key latch, the timer decrement and the reason remain of the step. -/
def Obligations.FatalErrorLeavesTheHandlersStateAlone : Prop :=
  ∀ (keys : Keys) (rand : Byte) (s t : State), s.run = .running → stepWith keys rand s = .next t →
    t.endedFatally = true →
      ∃ r, r.normal = false ∧ t = haltedWith r (atHandler keys rand s) ∧
        t.result = ⟨true, s.disp, false, some r, none⟩

/-- 60_exceptions.md R240, R249 (decisions D2, D4 to D8): which cause halts a step, exactly. -/
def Obligations.EveryHaltHasItsOneCause : Prop :=
  ∀ (keys : Keys) (rand : Byte) (s t : State), s.run = .running → stepWith keys rand s = .next t →
    (t.run = .halted .fetchOutOfBounds ↔ 0xFFF ≤ s.pc.toNat) ∧
    (s.pc.toNat ≤ 0xFFE →
      (t.run = .halted .stackOverflow ↔ (∃ addr, current s = .call addr) ∧ s.sp.val = 16) ∧
      (t.run = .halted .stackUnderflow ↔ current s = .ret ∧ s.sp.val = 0) ∧
      (∀ a, t.run = .halted (.memoryFault a) ↔
        0 < accessCount (current s) ∧ 4096 < s.i.toNat + accessCount (current s) ∧ a = max s.i.toNat 4096) ∧
      (∀ k, t.run = .halted (.keyIndexFault k) ↔
        ∃ x, (current s = .skipIfKeyDown x ∨ current s = .skipIfKeyUp x) ∧ k = s.reg x ∧ 16 ≤ k.toNat) ∧
      (t.run = .halted .pcOutOfBounds ↔ 4096 ≤ t.pc.toNat) ∧
      (t.run = .running ↔ t.endedFatally = false ∧ t.pc.toNat < 4096))

/-! ## What only some instructions may do -/

/-- 10_state.md R28: only Call and Return access the call stack. -/
def Obligations.OnlyCallAndReturnTouchTheStack : Prop :=
  ∀ (i : Instr) (s t : State), exec i s = .next t → (∀ addr, i ≠ .call addr) → i ≠ .ret →
    t.sp = s.sp ∧ t.stack = s.stack

/-- 10_state.md R25: no instruction other than SetIndex, AddIndex and LoadFontAddr writes `I`. -/
def Obligations.OnlyThreeInstructionsWriteTheIndex : Prop :=
  ∀ (i : Instr) (s t : State), exec i s = .next t →
    (∀ addr, i ≠ .setIndex addr) → (∀ x, i ≠ .addIndex x) → (∀ x, i ≠ .loadFontAddr x) → t.i = s.i

/-- 10_state.md R39: the display is mutated only by the clear and draw opcodes. -/
def Obligations.OnlyClearAndDrawChangeTheDisplay : Prop :=
  ∀ (keys : Keys) (rand : Byte) (s t : State), stepWith keys rand s = .next t →
    current s ≠ .clear → (∀ x y n, current s ≠ .draw x y n) → t.disp = s.disp

/-- 20_memory.md R68: only StoreBCD and DumpRegisters write memory, and only the bytes from `I` up that their rows
name. -/
def Obligations.OnlyStoresWriteMemory : Prop :=
  ∀ (i : Instr) (s t : State), exec i s = .next t →
    ∀ a, a < s.i.toNat ∨ s.i.toNat + storeCount i ≤ a → t.mem.read a = s.mem.read a

/-- 10_state.md R24 (marked derived there): the registers each instruction writes. -/
def Obligations.RegistersAreWrittenByTheTable : Prop :=
  ∀ (i : Instr) (s t : State), exec i s = .next t → ∀ r, ¬ mayWrite i r → t.reg r = s.reg r

/-! ## The invariant -/

/-- The invariant holds at reset, whatever FONT is, and after a load. -/
def Obligations.InvariantHoldsAfterResetAndLoad : Prop :=
  State.reset.Inv ∧ ∀ (font : FontTable) (image : List Byte) (s : State),
    load image (State.construct font) = .next s → s.Inv

/-- Every step keeps the invariant, from every state that has it and with any arguments: memory stays canonical, `run`
stays truthful (10_state.md R32, R35, 60_exceptions.md R240), `PC` and the stack entries stay within the bounds of
10_state.md R27. -/
def Obligations.EveryStepKeepsTheInvariant : Prop :=
  (∀ s t : State, s.Inv → step s = .next t → t.Inv) ∧
  ∀ (keys : Keys) (rand : Byte) (s t : State), s.Inv → stepWith keys rand s = .next t → t.Inv

/-- Every state a loaded machine reaches has the invariant, and until it is Halted it steps on; a run without a fatal
error ends, if it ends, with its `PC` at the end of memory or past it (40_step_cycle.md R133, 60_exceptions.md R247). -/
def Obligations.EveryReachedStateIsSound : Prop :=
  ∀ (font : FontTable) (image : List Byte) (s t : State), load image (State.construct font) = .next s →
    (Reaches s t → t.Inv ∧ (t.run = .running → ∀ keys rand, ∃ u, stepWith keys rand t = .next u ∧ Reaches s u)) ∧
    (SafeRun s t → t.run = .running ∨ t.endedNormally = true ∧ 0xFFF ≤ t.pc.toNat)

/-! ## Memory -/

/-- 20_memory.md R67, R72: a byte reads as the latest value written to it, at every address of memory, and a write
leaves every other byte alone. -/
def Obligations.ReadAfterWriteGivesTheByte : Prop :=
  ∀ (m : Memory) (a : Nat) (v : Byte), m.wf → a < 4096 →
    (m.write a v).read a = v ∧ (∀ b, b ≠ a → (m.write a v).read b = m.read b) ∧ (m.write a v).wf

/-- The canonical form: memories of one machine that read the same everywhere are equal as data. -/
def Obligations.EqualMemoriesAreEqualData : Prop :=
  ∀ m m' : Memory, m.wf → m'.wf → m.font = m'.font → (∀ a, a < 4096 → m.read a = m'.read a) → m = m'

/-- 20_memory.md R75, 70_reset_and_hazards.md R268: two bytes stored over the next instruction are the word that the
next fetch reads. -/
def Obligations.StoredBytesAreFetchedNext : Prop :=
  ∀ s : State, s.mem.wf → s.pc.toNat ≤ 0xFFC → s.i = s.pc + 2 →
    ∃ t, exec (.dumpRegisters 1) s = .next t ∧
      current t = decodeWord (BitVec.ofNat 16 ((s.reg 0).toNat * 256 + (s.reg 1).toNat))

/-! ## Registers and ALU -/

/-- 43_alu.md R172. -/
def Obligations.SetImmWritesTheImmediate : Prop :=
  ∀ (x : RegIdx) (kk : Byte), decodeWord (wordXK 0x6 x kk) = .setImm x kk ∧
    ∀ s, ∃ t, exec (.setImm x kk) s = .next t ∧ t.reg x = kk ∧ t.pc = s.pc + 2 ∧ Frame [] [x] s t

/-- 43_alu.md R173: modulo 256, no flag. -/
def Obligations.AddImmAddsWithoutFlag : Prop :=
  ∀ (x : RegIdx) (kk : Byte), decodeWord (wordXK 0x7 x kk) = .addImm x kk ∧
    ∀ s, ∃ t, exec (.addImm x kk) s = .next t ∧ (t.reg x).toNat = ((s.reg x).toNat + kk.toNat) % 256 ∧
      t.pc = s.pc + 2 ∧ Frame [] [x] s t

/-- 43_alu.md R174. -/
def Obligations.MoveCopiesTheRegister : Prop :=
  ∀ x y : RegIdx, decodeWord (wordXYN 0x8 x y 0x0) = .move x y ∧
    ∀ s, ∃ t, exec (.move x y) s = .next t ∧ t.reg x = s.reg y ∧ t.pc = s.pc + 2 ∧ Frame [] [x] s t

/-- 43_alu.md R175, R176, R177: bit by bit, VF not reset. -/
def Obligations.LogicOpsAreBitwiseWithoutFlag : Prop :=
  (∀ x y : RegIdx, decodeWord (wordXYN 0x8 x y 0x1) = .or x y ∧
    ∀ s, ∃ t, exec (.or x y) s = .next t ∧
      (∀ b, b < 8 → (t.reg x).getLsbD b = ((s.reg x).getLsbD b || (s.reg y).getLsbD b)) ∧
      t.pc = s.pc + 2 ∧ Frame [] [x] s t) ∧
  (∀ x y : RegIdx, decodeWord (wordXYN 0x8 x y 0x2) = .and x y ∧
    ∀ s, ∃ t, exec (.and x y) s = .next t ∧
      (∀ b, b < 8 → (t.reg x).getLsbD b = ((s.reg x).getLsbD b && (s.reg y).getLsbD b)) ∧
      t.pc = s.pc + 2 ∧ Frame [] [x] s t) ∧
  ∀ x y : RegIdx, decodeWord (wordXYN 0x8 x y 0x3) = .xor x y ∧
    ∀ s, ∃ t, exec (.xor x y) s = .next t ∧
      (∀ b, b < 8 → (t.reg x).getLsbD b = ((s.reg x).getLsbD b ^^ (s.reg y).getLsbD b)) ∧
      t.pc = s.pc + 2 ∧ Frame [] [x] s t

/-- 43_alu.md R171, R178: sum and carry; the flag is written last, so VF holds it also for `x = 15` (decision D9, the
spec's own, so 'derived'). -/
def Obligations.AddRegGivesSumAndCarry : Prop :=
  ∀ x y : RegIdx, decodeWord (wordXYN 0x8 x y 0x4) = .addReg x y ∧
    ∀ s, ∃ t, exec (.addReg x y) s = .next t ∧
      (x ≠ vf → (t.reg x).toNat = ((s.reg x).toNat + (s.reg y).toNat) % 256) ∧
      t.reg vf = (if (s.reg x).toNat + (s.reg y).toNat > 255 then 1 else 0) ∧
      t.pc = s.pc + 2 ∧ Frame [] [x, vf] s t

/-- 43_alu.md R171, R179, R181: difference and strict comparison; for `x = 15` VF holds the flag (decision D9). -/
def Obligations.SubtractionsGiveDifferenceAndStrictFlag : Prop :=
  (∀ x y : RegIdx, decodeWord (wordXYN 0x8 x y 0x5) = .subReg x y ∧
    ∀ s, ∃ t, exec (.subReg x y) s = .next t ∧
      (x ≠ vf → ((t.reg x).toNat : Int) = (((s.reg x).toNat : Int) - ((s.reg y).toNat : Int)) % 256) ∧
      t.reg vf = (if (s.reg x).toNat > (s.reg y).toNat then 1 else 0) ∧
      t.pc = s.pc + 2 ∧ Frame [] [x, vf] s t) ∧
  ∀ x y : RegIdx, decodeWord (wordXYN 0x8 x y 0x7) = .subnReg x y ∧
    ∀ s, ∃ t, exec (.subnReg x y) s = .next t ∧
      (x ≠ vf → ((t.reg x).toNat : Int) = (((s.reg y).toNat : Int) - ((s.reg x).toNat : Int)) % 256) ∧
      t.reg vf = (if (s.reg y).toNat > (s.reg x).toNat then 1 else 0) ∧
      t.pc = s.pc + 2 ∧ Frame [] [x, vf] s t

/-- 43_alu.md R171, R180, R182: the shifted value of `V[x]` and the bit shifted out, whatever `y` holds; for `x = 15`
VF holds the flag (decision D9). -/
def Obligations.ShiftsGiveValueAndShiftedOutBit : Prop :=
  (∀ x y : RegIdx, decodeWord (wordXYN 0x8 x y 0x6) = .shiftRight x ∧
    ∀ s, ∃ t, exec (.shiftRight x) s = .next t ∧
      (x ≠ vf → (t.reg x).toNat = (s.reg x).toNat / 2) ∧ (t.reg vf).toNat = (s.reg x).toNat % 2 ∧
      t.pc = s.pc + 2 ∧ Frame [] [x, vf] s t) ∧
  ∀ x y : RegIdx, decodeWord (wordXYN 0x8 x y 0xE) = .shiftLeft x ∧
    ∀ s, ∃ t, exec (.shiftLeft x) s = .next t ∧
      (x ≠ vf → (t.reg x).toNat = (s.reg x).toNat * 2 % 256) ∧ (t.reg vf).toNat = (s.reg x).toNat / 128 ∧
      t.pc = s.pc + 2 ∧ Frame [] [x, vf] s t

/-- 43_alu.md R183 (marked derived there), at the next state of each instruction. -/
def Obligations.ArithmeticLawsHold : Prop :=
  ∀ (x y : RegIdx) (s t : State), x ≠ vf →
    (exec (.shiftRight x) s = .next t → (s.reg x).toNat = 2 * (t.reg x).toNat + (t.reg vf).toNat) ∧
    (exec (.shiftLeft x) s = .next t → (s.reg x).toNat = (t.reg vf).toNat * 128 + (t.reg x).toNat / 2) ∧
    (exec (.addReg x y) s = .next t →
      (s.reg x).toNat + (s.reg y).toNat = (t.reg vf).toNat * 256 + (t.reg x).toNat) ∧
    (exec (.subReg x y) s = .next t ∨ exec (.subnReg x y) s = .next t → s.reg x = s.reg y →
      t.reg x = 0 ∧ t.reg vf = 0) ∧
    ∀ kk, exec (.addImm x kk) s = .next t → t.reg vf = s.reg vf

/-- 43_alu.md R184, 10_state.md R37 (decision D15): the step's free byte, masked, whatever it is. The handler finds it
in the model's own field `rand` (notes/assumptions/2.md). -/
def Obligations.RandomMasksTheFreeByte : Prop :=
  ∀ (x : RegIdx) (kk : Byte), decodeWord (wordXK 0xC x kk) = .random x kk ∧
    (∀ s, ∃ t, exec (.random x kk) s = .next t ∧ t.reg x = s.rand &&& kk ∧ t.pc = s.pc + 2 ∧ Frame [] [x] s t) ∧
    ∀ (keys : Keys) (rand : Byte) (s : State), s.run = .running → s.pc.toNat ≤ 0xFFE → current s = .random x kk →
      ∃ t, stepWith keys rand s = .next t ∧ t.reg x = rand &&& kk

/-! ## Timer and Unknown -/

/-- 45_timer_unknown.md R220, R221: the value GetDelay reads is the timer after its own step's decrement, and the value
SetDelay writes is not decremented in its own step. -/
def Obligations.DelayInstructionsMoveTheTimer : Prop :=
  (∀ x : RegIdx, decodeWord (wordXK 0xF x 0x07) = .getDelay x ∧
    (∀ s, ∃ t, exec (.getDelay x) s = .next t ∧ t.reg x = s.dt ∧ t.pc = s.pc + 2 ∧ Frame [] [x] s t) ∧
    ∀ (keys : Keys) (rand : Byte) (s : State), s.run = .running → s.pc.toNat ≤ 0xFFE → current s = .getDelay x →
      ∃ t, stepWith keys rand s = .next t ∧ (t.reg x).toNat = s.dt.toNat - 1) ∧
  ∀ x : RegIdx, decodeWord (wordXK 0xF x 0x15) = .setDelay x ∧
    (∀ s, ∃ t, exec (.setDelay x) s = .next t ∧ t.dt = s.reg x ∧ t.pc = s.pc + 2 ∧ Frame [.timer] [] s t) ∧
    ∀ (keys : Keys) (rand : Byte) (s : State), s.run = .running → s.pc.toNat ≤ 0xFFE → current s = .setDelay x →
      ∃ t, stepWith keys rand s = .next t ∧ t.dt = s.reg x

/-- 70_reset_and_hazards.md R267 (marked derived there), 45_timer_unknown.md R220, R221: a GetDelay in the step after a
SetDelay reads the value written, less one. -/
def Obligations.GetDelayAfterSetDelayReadsOneLess : Prop :=
  ∀ (keys keys' : Keys) (rand rand' : Byte) (x y : RegIdx) (s : State), s.run = .running → s.pc.toNat ≤ 0xFFC →
    wordAt s.mem s.pc.toNat = wordXK 0xF x 0x15 → wordAt s.mem (s.pc.toNat + 2) = wordXK 0xF y 0x07 →
      ∃ t u, stepWith keys rand s = .next t ∧ t.dt = s.reg x ∧ stepWith keys' rand' t = .next u ∧
        (u.reg y).toNat = (s.reg x).toNat - 1

/-- 45_timer_unknown.md R222 (decision D11), 60_exceptions.md R242: a no-op that reports the word. -/
def Obligations.UnknownIsAReportedNoOp : Prop :=
  ∀ (w : Word) (s : State), ∃ t, exec (.unknown w) s = .next t ∧ t.result.unknown = some w ∧
    t.result.displayChanged = s.displayChanged ∧ t.pc = s.pc + 2 ∧ Frame [.report] [] s t

/-! ## Index register and memory -/

/-- 44_index_memory.md R200, R201, R202. -/
def Obligations.IndexInstructionsWriteI : Prop :=
  (∀ addr : Addr, decodeWord (wordA 0xA addr) = .setIndex addr ∧
    ∀ s, ∃ t, exec (.setIndex addr) s = .next t ∧ t.i.toNat = addr.toNat ∧ t.pc = s.pc + 2 ∧
      Frame [.index] [] s t) ∧
  (∀ x : RegIdx, decodeWord (wordXK 0xF x 0x1E) = .addIndex x ∧
    ∀ s, ∃ t, exec (.addIndex x) s = .next t ∧ t.i.toNat = (s.i.toNat + (s.reg x).toNat) % 65536 ∧
      t.pc = s.pc + 2 ∧ Frame [.index] [] s t) ∧
  ∀ x : RegIdx, decodeWord (wordXK 0xF x 0x29) = .loadFontAddr x ∧
    ∀ s, ∃ t, exec (.loadFontAddr x) s = .next t ∧ t.i.toNat = (s.reg x).toNat * 5 ∧ t.pc = s.pc + 2 ∧
      Frame [.index] [] s t

/-- 44_index_memory.md R203, where the range check passes. -/
def Obligations.StoreBCDWritesThreeDigits : Prop :=
  ∀ x : RegIdx, decodeWord (wordXK 0xF x 0x33) = .storeBCD x ∧
    ∀ s : State, s.mem.wf → s.i.toNat + 2 < 4096 →
      ∃ t, exec (.storeBCD x) s = .next t ∧
        (t.mem.read s.i.toNat).toNat = (s.reg x).toNat / 100 ∧
        (t.mem.read (s.i.toNat + 1)).toNat = (s.reg x).toNat / 10 % 10 ∧
        (t.mem.read (s.i.toNat + 2)).toNat = (s.reg x).toNat % 10 ∧
        (∀ a, a < s.i.toNat ∨ s.i.toNat + 3 ≤ a → t.mem.read a = s.mem.read a) ∧ t.mem.font = s.mem.font ∧
        t.pc = s.pc + 2 ∧ Frame [.memory] [] s t

/-- 44_index_memory.md R205, where the range check passes; `I` is unchanged. -/
def Obligations.DumpRegistersStoresTheRegisters : Prop :=
  ∀ x : RegIdx, decodeWord (wordXK 0xF x 0x55) = .dumpRegisters x ∧
    ∀ s : State, s.mem.wf → s.i.toNat + x.val < 4096 →
      ∃ t, exec (.dumpRegisters x) s = .next t ∧
        (∀ r : RegIdx, r ≤ x → t.mem.read (s.i.toNat + r.val) = s.reg r) ∧
        (∀ a, a < s.i.toNat ∨ s.i.toNat + (x.val + 1) ≤ a → t.mem.read a = s.mem.read a) ∧
        t.mem.font = s.mem.font ∧ t.pc = s.pc + 2 ∧ Frame [.memory] [] s t

/-- 44_index_memory.md R206, where the range check passes; `I` is unchanged, and the registers above `x` too. -/
def Obligations.LoadRegistersLoadsTheRegisters : Prop :=
  ∀ x : RegIdx, decodeWord (wordXK 0xF x 0x65) = .loadRegisters x ∧
    ∀ s : State, s.i.toNat + x.val < 4096 →
      ∃ t, exec (.loadRegisters x) s = .next t ∧
        (∀ r : RegIdx, r ≤ x → t.reg r = s.mem.read (s.i.toNat + r.val)) ∧
        (∀ r : RegIdx, x < r → t.reg r = s.reg r) ∧ t.pc = s.pc + 2 ∧ ∀ p : Part, p.same s t

/-- 44_index_memory.md R204, 20_memory.md R66, 60_exceptions.md R245 (decisions D6, D21): an access at 4096 or above,
the sum exact, halts with the lowest such address and writes nothing. -/
def Obligations.OutOfRangeAccessIsAMemoryFault : Prop :=
  ∀ (i : Instr) (s : State), 0 < accessCount i → 4096 < s.i.toNat + accessCount i →
    exec i s = .next (haltedWith (.memoryFault (max s.i.toNat 4096)) s)

/-! ## Display -/

/-- 41_display.md R140. -/
def Obligations.ClearBlanksTheDisplay : Prop :=
  ∀ s, ∃ t, exec .clear s = .next t ∧ (∀ x y, t.disp.pixel x y = false) ∧ t.result.displayChanged = true ∧
    t.unknown = s.unknown ∧ t.pc = s.pc + 2 ∧ Frame [.display, .report] [] s t

/-- 41_display.md R141, where the range check passes: exactly the pixels under a set sprite bit flip, both axes
wrapping, and VF says whether one was cleared; the coordinates are the registers before VF is written, also for `x` or
`y` = 15 (decision D10), and `display_changed` is true also for `n = 0` (decision D10). -/
def Obligations.DrawXorsTheSpriteAndFlagsCollision : Prop :=
  ∀ (x y : RegIdx) (n : Fin 16), decodeWord (wordXYN 0xD x y n) = .draw x y n ∧
    ∀ s : State, n.val = 0 ∨ s.i.toNat + n.val ≤ 4096 →
      ∃ t, exec (.draw x y n) s = .next t ∧
        (∀ (px : Fin 64) (py : Fin 32), t.disp.pixel px py ≠ s.disp.pixel px py ↔
          ∃ row, row < n.val ∧ ∃ bit, bit < 8 ∧ px.val = ((s.reg x).toNat + bit) % 64 ∧
            py.val = ((s.reg y).toNat + row) % 32 ∧ (s.mem.read (s.i.toNat + row)).getLsbD (7 - bit) = true) ∧
        ((∃ px py, s.disp.pixel px py = true ∧ t.disp.pixel px py = false) → t.reg vf = 1) ∧
        ((∀ px py, s.disp.pixel px py = true → t.disp.pixel px py = true) → t.reg vf = 0) ∧
        t.result.displayChanged = true ∧ t.unknown = s.unknown ∧ t.pc = s.pc + 2 ∧
        Frame [.display, .report] [vf] s t

/-- 95_test_vectors.md L1-6, 41_display.md R141: the same Draw twice gives back the display it began with; from a blank
display the first draw sets no flag, and the second sets it if anything had been drawn. -/
def Obligations.DrawingTwiceErases : Prop :=
  ∀ (x y : RegIdx) (n : Fin 16) (s : State), x ≠ vf → y ≠ vf → n.val = 0 ∨ s.i.toNat + n.val ≤ 4096 →
    ∃ t u, exec (.draw x y n) s = .next t ∧ exec (.draw x y n) t = .next u ∧ u.disp = s.disp ∧
      (s.disp = Display.blank → t.reg vf = 0 ∧ (t.disp ≠ Display.blank → u.reg vf = 1))

/-! ## Control transfer -/

/-- 42_control.md R151, R153: the target is exact and nothing but `PC` (and `run`, if it leaves memory) changes. -/
def Obligations.JumpsSetThePc : Prop :=
  (∀ addr : Addr, decodeWord (wordA 0x1 addr) = .jump addr ∧
    ∀ s, ∃ t, exec (.jump addr) s = .next t ∧ t.pc.toNat = addr.toNat ∧ Frame [] [] s t) ∧
  ∀ addr : Addr, decodeWord (wordA 0xB addr) = .jumpIndexed addr ∧
    ∀ s, ∃ t, exec (.jumpIndexed addr) s = .next t ∧ t.pc.toNat = (s.reg 0).toNat + addr.toNat ∧ Frame [] [] s t

/-- 42_control.md R152, 10_state.md R29 (decision D3): a Call with room pushes the address after it and jumps. -/
def Obligations.CallPushesTheReturnAddress : Prop :=
  ∀ addr : Addr, decodeWord (wordA 0x2 addr) = .call addr ∧
    ∀ s : State, s.sp.val < 16 →
      ∃ t, exec (.call addr) s = .next t ∧ t.sp.val = s.sp.val + 1 ∧
        (∀ j : Fin 16, j.val = s.sp.val → t.stack[j.val] = s.pc + 2) ∧
        (∀ j : Fin 16, j.val ≠ s.sp.val → t.stack[j.val] = s.stack[j.val]) ∧
        t.pc.toNat = addr.toNat ∧ Frame [.callStack] [] s t

/-- 42_control.md R150, 10_state.md R29 (decision D3): a Return with an entry pops it into `PC`, and leaves it in
place. -/
def Obligations.ReturnPopsThePc : Prop :=
  ∀ s : State, 0 < s.sp.val →
    ∃ t, exec .ret s = .next t ∧ t.sp.val + 1 = s.sp.val ∧ t.stack = s.stack ∧
      (∀ j : Fin 16, j.val + 1 = s.sp.val → t.pc = s.stack[j.val]) ∧ Frame [.callStack] [] s t

/-- 60_exceptions.md R243, R244, 10_state.md R30 (decisions D4, D5): a Call on a full stack and a Return on an empty
one halt the machine and write nothing. -/
def Obligations.StackErrorsHalt : Prop :=
  (∀ (addr : Addr) (s : State), s.sp.val = 16 → exec (.call addr) s = .next (haltedWith .stackOverflow s)) ∧
  ∀ s : State, s.sp.val = 0 → exec .ret s = .next (haltedWith .stackUnderflow s)

/-- 42_control.md R150, 95_test_vectors.md L1-10: a Call whose subroutine is a Return comes back to the instruction
after the Call, in two steps, with the stack as deep as before. -/
def Obligations.CallThenReturnComesBack : Prop :=
  ∀ (keys keys' : Keys) (rand rand' : Byte) (addr : Addr) (s : State), s.run = .running → s.pc.toNat ≤ 0xFFC →
    s.sp.val < 16 → addr.toNat ≤ 0xFFE → wordAt s.mem s.pc.toNat = wordA 0x2 addr →
    wordAt s.mem addr.toNat = 0x00EE →
      ∃ t u, stepWith keys rand s = .next t ∧ t.pc.toNat = addr.toNat ∧ stepWith keys' rand' t = .next u ∧
        u.pc.toNat = s.pc.toNat + 2 ∧ u.sp = s.sp ∧ u.run = .running

/-- 42_control.md R154 to R157: the skip on a comparison; nothing but `PC` (and `run`, if it leaves memory) changes. -/
def Obligations.ComparisonSkipsTestTheRegisters : Prop :=
  (∀ (x : RegIdx) (kk : Byte), decodeWord (wordXK 0x3 x kk) = .skipEqImm x kk ∧
    ∀ s, ∃ t, exec (.skipEqImm x kk) s = .next t ∧ t.pc = s.pc + (if s.reg x = kk then 4 else 2) ∧
      Frame [] [] s t) ∧
  (∀ (x : RegIdx) (kk : Byte), decodeWord (wordXK 0x4 x kk) = .skipNeImm x kk ∧
    ∀ s, ∃ t, exec (.skipNeImm x kk) s = .next t ∧ t.pc = s.pc + (if s.reg x ≠ kk then 4 else 2) ∧
      Frame [] [] s t) ∧
  (∀ x y n : Fin 16, decodeWord (wordXYN 0x5 x y n) = .skipEqReg x y ∧
    ∀ s, ∃ t, exec (.skipEqReg x y) s = .next t ∧ t.pc = s.pc + (if s.reg x = s.reg y then 4 else 2) ∧
      Frame [] [] s t) ∧
  ∀ x y n : Fin 16, decodeWord (wordXYN 0x9 x y n) = .skipNeReg x y ∧
    ∀ s, ∃ t, exec (.skipNeReg x y) s = .next t ∧ t.pc = s.pc + (if s.reg x ≠ s.reg y then 4 else 2) ∧
      Frame [] [] s t

/-- 42_control.md R158, R159, where `V[x]` names a key. -/
def Obligations.KeySkipsTestTheLatch : Prop :=
  ∀ (x : RegIdx), decodeWord (wordXK 0xE x 0x9E) = .skipIfKeyDown x ∧
    decodeWord (wordXK 0xE x 0xA1) = .skipIfKeyUp x ∧
    ∀ (s : State) (k : Fin 16), (s.reg x).toNat = k.val →
      (∃ t, exec (.skipIfKeyDown x) s = .next t ∧ t.pc = s.pc + (if s.key[k.val] = true then 4 else 2) ∧
        Frame [] [] s t) ∧
      ∃ t, exec (.skipIfKeyUp x) s = .next t ∧ t.pc = s.pc + (if s.key[k.val] = false then 4 else 2) ∧
        Frame [] [] s t

/-- 60_exceptions.md R246 (decision D7): a key index of 16 or more halts and writes nothing. -/
def Obligations.KeyIndexOutOfRangeHalts : Prop :=
  ∀ (x : RegIdx) (s : State), 16 ≤ (s.reg x).toNat →
    exec (.skipIfKeyDown x) s = .next (haltedWith (.keyIndexFault (s.reg x)) s) ∧
    exec (.skipIfKeyUp x) s = .next (haltedWith (.keyIndexFault (s.reg x)) s)

end
end

