-- ==== Sys2Proof/Laws/Decode.lean ====
section
/-! SUPPORT. The decoder's fields as numbers, and the words the encoder packs. -/

namespace Sys2Proof

theorem nibbleAt_val (w : Word) (lo : Nat) : (nibbleAt w lo).val = w.toNat / 2 ^ lo % 16 := by
  have : (nibbleAt w lo).val = (w.extractLsb' lo 4).toNat := rfl
  rw [this, BitVec.extractLsb'_toNat, Nat.shiftRight_eq_div_pow]

theorem fieldGroup_val (w : Word) : (fieldGroup w).val = w.toNat / 4096 := by
  rw [fieldGroup, nibbleAt_val]
  have := w.isLt
  omega

theorem fieldX_val (w : Word) : (fieldX w).val = w.toNat / 256 % 16 := nibbleAt_val w 8

theorem fieldY_val (w : Word) : (fieldY w).val = w.toNat / 16 % 16 := nibbleAt_val w 4

theorem fieldN_val (w : Word) : (fieldN w).val = w.toNat % 16 := by
  rw [fieldN, nibbleAt_val, Nat.pow_zero, Nat.div_one]

theorem fieldKK_toNat (w : Word) : (fieldKK w).toNat = w.toNat % 256 := by
  rw [fieldKK, BitVec.extractLsb'_toNat, Nat.shiftRight_zero]

theorem fieldAddr_toNat (w : Word) : (fieldAddr w).toNat = w.toNat % 4096 := by
  rw [fieldAddr, BitVec.extractLsb'_toNat, Nat.shiftRight_zero]

/-- Appending is adding, the upper part shifted. -/
theorem toNat_append_add {n m : Nat} (a : BitVec n) (b : BitVec m) : (a ++ b).toNat = a.toNat * 2 ^ m + b.toNat := by
  rw [BitVec.toNat_append, ← Nat.shiftLeft_add_eq_or_of_lt b.isLt, Nat.shiftLeft_eq]

theorem packA_toNat (g : BitVec 4) (addr : Addr) : (packA g addr).toNat = g.toNat * 4096 + addr.toNat :=
  toNat_append_add g addr

theorem packXK_toNat (g : BitVec 4) (x : Fin 16) (kk : Byte) :
    (packXK g x kk).toNat = g.toNat * 4096 + x.val * 256 + kk.toNat := by
  rw [Nat.add_assoc]
  exact (toNat_append_add g _).trans (congrArg (g.toNat * 4096 + ·) (toNat_append_add _ kk))

theorem packXYN_toNat (g : BitVec 4) (x y n : Fin 16) :
    (packXYN g x y n).toNat = g.toNat * 4096 + x.val * 256 + y.val * 16 + n.val := by
  rw [Nat.add_assoc, Nat.add_assoc]
  exact (toNat_append_add g _).trans (congrArg (g.toNat * 4096 + ·)
    ((toNat_append_add _ _).trans (congrArg (x.val * 256 + ·) (toNat_append_add _ _))))

/-- The fields of a word given by its number: the ones read by groups keyed on `n`. -/
theorem fields_of_toNat {w : Word} {g x y n : Nat} (hx : x < 16) (hy : y < 16) (hn : n < 16)
    (h : w.toNat = g * 4096 + x * 256 + y * 16 + n) :
    (fieldGroup w).val = g ∧ (fieldX w).val = x ∧ (fieldY w).val = y ∧ (fieldN w).val = n ∧
      (fieldKK w).toNat = y * 16 + n ∧ (fieldAddr w).toNat = x * 256 + y * 16 + n := by
  rw [fieldGroup_val, fieldX_val, fieldY_val, fieldN_val, fieldKK_toNat, fieldAddr_toNat, h]
  omega

/-- The bytes of a word in memory order put together again. -/
theorem wordOfBytes_bytesOfWord (w : Word) : wordOfBytes (highByte w) (lowByte w) = w := by
  apply BitVec.eq_of_toNat_eq
  have h := w.isLt
  refine (toNat_append_add (highByte w) (lowByte w)).trans ?_
  rw [highByte, lowByte, BitVec.extractLsb'_toNat, BitVec.extractLsb'_toNat, Nat.shiftRight_eq_div_pow,
    Nat.shiftRight_zero]
  omega

theorem decode_bytesOfWord (w : Word) (rest : List Byte) :
    decode (bytesOfWord w ++ rest) = .ok (decodeWord w, rest) := by
  simp [bytesOfWord, decode, wordOfBytes_bytesOfWord]

/-- Shorter lists are rejected by name. -/
theorem decode_short {bs : List Byte} (h : bs.length < 2) : decode bs = .error .truncated := by
  match bs, h with
  | [], _ => rfl
  | [_], _ => rfl

end Sys2Proof
end

