-- ==== Sys2Proof/Laws/Memory.lean ====
section
/-! SUPPORT. Memory: read after write, and that every write keeps the canonical form. -/

namespace Sys2Proof.Machine

theorem lookupCell_insertCell_same (a : Nat) (v : Byte) (cs : List Host.Cell) :
    lookupCell a (insertCell a v cs) = some v := by
  induction cs with
  | nil => simp [insertCell, lookupCell]
  | cons c cs ih => grind [insertCell, lookupCell]

theorem lookupCell_insertCell_of_ne {a b : Nat} (h : a ≠ b) (v : Byte) (cs : List Host.Cell) :
    lookupCell a (insertCell b v cs) = lookupCell a cs := by
  induction cs with
  | nil => simp [insertCell, lookupCell, h]
  | cons c cs ih => grind [insertCell, lookupCell]

theorem lookupCell_eraseCell_of_ne {a b : Nat} (h : a ≠ b) (cs : List Host.Cell) :
    lookupCell a (eraseCell b cs) = lookupCell a cs := by
  induction cs with
  | nil => rfl
  | cons c cs ih => grind [eraseCell, lookupCell]

/-- An address below every listed one is not listed. -/
theorem lookupCell_eq_none {a : Nat} {cs : List Host.Cell} (h : ∀ c ∈ cs, a ≠ c.1) : lookupCell a cs = none := by
  induction cs with
  | nil => rfl
  | cons c cs ih => grind [lookupCell]

theorem lookupCell_eraseCell_same {a : Nat} {cs : List Host.Cell} (h : cs.Pairwise (fun c d => c.1 < d.1)) :
    lookupCell a (eraseCell a cs) = none := by
  induction cs with
  | nil => rfl
  | cons c cs ih =>
    obtain ⟨hc, hcs⟩ := List.pairwise_cons.mp h
    by_cases e : a = c.1
    · subst e
      simp only [eraseCell, if_pos]
      exact lookupCell_eq_none fun d hd => by have := hc d hd; omega
    · simp [eraseCell, lookupCell, e, ih hcs]

theorem mem_insertCell {a : Nat} {v : Byte} {cs : List Host.Cell} {c : Host.Cell} (h : c ∈ insertCell a v cs) :
    c = (a, v) ∨ c ∈ cs := by
  induction cs with
  | nil => simpa [insertCell] using h
  | cons d cs ih => grind [insertCell]

theorem mem_eraseCell {a : Nat} {cs : List Host.Cell} {c : Host.Cell} (h : c ∈ eraseCell a cs) : c ∈ cs := by
  induction cs with
  | nil => exact h
  | cons d cs ih => grind [eraseCell]

theorem insertCell_pairwise (a : Nat) (v : Byte) {cs : List Host.Cell} (h : cs.Pairwise (fun c d => c.1 < d.1)) :
    (insertCell a v cs).Pairwise (fun c d => c.1 < d.1) := by
  induction cs with
  | nil => simp [insertCell]
  | cons d cs ih =>
    obtain ⟨b, w⟩ := d
    obtain ⟨hd, hcs⟩ := List.pairwise_cons.mp h
    simp only [insertCell]
    split
    · rename_i hlt
      refine List.pairwise_cons.mpr ⟨fun c hc => ?_, h⟩
      rcases List.mem_cons.mp hc with rfl | hc
      · exact hlt
      · exact Nat.lt_trans hlt (hd c hc)
    · split
      · rename_i _ heq
        exact List.pairwise_cons.mpr ⟨fun c hc => heq ▸ hd c hc, hcs⟩
      · rename_i hlt hne
        refine List.pairwise_cons.mpr ⟨fun c hc => ?_, ih hcs⟩
        rcases mem_insertCell hc with rfl | hc
        · exact Nat.lt_of_le_of_ne (Nat.not_lt.mp hlt) (Ne.symm hne)
        · exact hd c hc

theorem eraseCell_pairwise (a : Nat) {cs : List Host.Cell} (h : cs.Pairwise (fun c d => c.1 < d.1)) :
    (eraseCell a cs).Pairwise (fun c d => c.1 < d.1) := by
  induction cs with
  | nil => exact h
  | cons d cs ih =>
    obtain ⟨hd, hcs⟩ := List.pairwise_cons.mp h
    simp only [eraseCell]
    split
    · exact hcs
    · exact List.pairwise_cons.mpr ⟨fun c hc => hd c (mem_eraseCell hc), ih hcs⟩

theorem mem_eraseCell_ne {a : Nat} {cs : List Host.Cell} (h : cs.Pairwise (fun c d => c.1 < d.1)) {c : Host.Cell}
    (hc : c ∈ eraseCell a cs) : c.1 ≠ a := by
  induction cs with
  | nil => simp [eraseCell] at hc
  | cons d cs ih =>
    obtain ⟨hd, hcs⟩ := List.pairwise_cons.mp h
    simp only [eraseCell] at hc
    split at hc
    · rename_i e; have := hd c hc; omega
    · rename_i e
      rcases List.mem_cons.mp hc with rfl | hc
      · simpa [eq_comm] using e
      · exact ih hcs hc

@[simp] theorem Memory.write_font (m : Memory) (a : Nat) (v : Byte) : (m.write a v).font = m.font := by
  unfold Memory.write; split <;> rfl

theorem Memory.unlisted_congr {m m' : Memory} (h : m.font = m'.font) (a : Nat) : m.unlisted a = m'.unlisted a := by
  simp [Memory.unlisted, h]

@[simp] theorem Memory.write_unlisted (m : Memory) (a : Nat) (v : Byte) (b : Nat) :
    (m.write a v).unlisted b = m.unlisted b := Memory.unlisted_congr (m.write_font a v) b

/-- Writing the unlisted value takes the cell off, and needs the canonical form to be read back. -/
theorem Memory.read_write_same {m : Memory} (hm : m.wf) {a : Nat} (ha : a < Config.memSize) (v : Byte) :
    (m.write a v).read a = v := by
  unfold Memory.read
  rw [Memory.write_unlisted]
  simp only [Memory.write, if_pos ha]
  by_cases hv : v = m.unlisted a
  · rw [if_pos hv, lookupCell_eraseCell_same hm.1, Option.getD_none, hv]
  · rw [if_neg hv, lookupCell_insertCell_same, Option.getD_some]

theorem Memory.read_write_of_ne (m : Memory) {a b : Nat} (h : a ≠ b) (v : Byte) :
    (m.write b v).read a = m.read a := by
  unfold Memory.read
  rw [Memory.write_unlisted]
  unfold Memory.write
  split
  · split
    · rw [lookupCell_eraseCell_of_ne h]
    · rw [lookupCell_insertCell_of_ne h]
  · rfl

theorem Memory.write_wf {m : Memory} (hm : m.wf) (a : Nat) (v : Byte) : (m.write a v).wf := by
  refine ⟨?_, fun c hc => ?_⟩
  · unfold Memory.write
    split
    · dsimp only; split
      · exact eraseCell_pairwise a hm.1
      · exact insertCell_pairwise a v hm.1
    · exact hm.1
  · rw [Memory.write_unlisted]
    unfold Memory.write at hc
    split at hc
    · rename_i ha
      dsimp only at hc
      split at hc
      · exact hm.2 c (mem_eraseCell hc)
      · rename_i hv
        rcases mem_insertCell hc with rfl | hc
        · exact ⟨ha, hv⟩
        · exact hm.2 c hc
    · exact hm.2 c hc

@[simp] theorem Memory.writeBytes_font (m : Memory) (a : Nat) (bs : List Byte) :
    (m.writeBytes a bs).font = m.font := by
  induction bs generalizing m a with
  | nil => rfl
  | cons b bs ih => simp [Memory.writeBytes, ih]

theorem Memory.writeBytes_wf {m : Memory} (hm : m.wf) (a : Nat) (bs : List Byte) : (m.writeBytes a bs).wf := by
  induction bs generalizing m a with
  | nil => exact hm
  | cons b bs ih => exact ih (Memory.write_wf hm a b) (a + 1)

theorem Memory.read_writeBytes_outside (m : Memory) {a c : Nat} (bs : List Byte)
    (h : c < a ∨ a + bs.length ≤ c) : (m.writeBytes a bs).read c = m.read c := by
  induction bs generalizing m a with
  | nil => rfl
  | cons b bs ih =>
    simp only [List.length_cons] at h
    rw [Memory.writeBytes, ih (m.write a b) (a := a + 1) (by omega), Memory.read_write_of_ne m (by omega)]

theorem Memory.read_writeBytes_inside {m : Memory} (hm : m.wf) {a : Nat} (bs : List Byte) {j : Nat}
    (hj : j < bs.length) (h : a + bs.length ≤ Config.memSize) : (m.writeBytes a bs).read (a + j) = bs[j] := by
  induction bs generalizing m a j with
  | nil => simp at hj
  | cons b bs ih =>
    simp only [List.length_cons] at h hj
    cases j with
    | zero =>
      rw [Memory.writeBytes, Memory.read_writeBytes_outside _ _ (by omega)]
      exact Memory.read_write_same hm (by omega) b
    | succ j =>
      have := ih (Memory.write_wf hm a b) (a := a + 1) (j := j) (by omega) (by omega)
      rw [Memory.writeBytes, show a + (j + 1) = a + 1 + j by omega, this]
      rfl

end Sys2Proof.Machine
end

