-- ==== Sys2Proof/Laws/State.lean ====
section
/-! SUPPORT. One lemma per field per update, true by rfl: what each named update of the state does to each field. -/

namespace Sys2Proof.Machine

section
variable (s : State) (x : RegIdx) (b : Byte)

@[simp] theorem State.setReg_v : (s.setReg x b).v = (s.v.set x.val b) := rfl
@[simp] theorem State.setReg_i : (s.setReg x b).i = s.i := rfl
@[simp] theorem State.setReg_pc : (s.setReg x b).pc = s.pc := rfl
@[simp] theorem State.setReg_sp : (s.setReg x b).sp = s.sp := rfl
@[simp] theorem State.setReg_stack : (s.setReg x b).stack = s.stack := rfl
@[simp] theorem State.setReg_dt : (s.setReg x b).dt = s.dt := rfl
@[simp] theorem State.setReg_disp : (s.setReg x b).disp = s.disp := rfl
@[simp] theorem State.setReg_key : (s.setReg x b).key = s.key := rfl
@[simp] theorem State.setReg_mem : (s.setReg x b).mem = s.mem := rfl
@[simp] theorem State.setReg_run : (s.setReg x b).run = s.run := rfl
@[simp] theorem State.setReg_rand : (s.setReg x b).rand = s.rand := rfl
@[simp] theorem State.setReg_displayChanged : (s.setReg x b).displayChanged = s.displayChanged := rfl
@[simp] theorem State.setReg_unknown : (s.setReg x b).unknown = s.unknown := rfl
@[simp] theorem State.setReg_inputs : (s.setReg x b).inputs = s.inputs := rfl
@[simp] theorem State.setReg_steps : (s.setReg x b).steps = s.steps := rfl

end

section
variable (s : State) (f : Bool)

@[simp] theorem State.setFlag_i : (s.setFlag f).i = s.i := rfl
@[simp] theorem State.setFlag_pc : (s.setFlag f).pc = s.pc := rfl
@[simp] theorem State.setFlag_sp : (s.setFlag f).sp = s.sp := rfl
@[simp] theorem State.setFlag_stack : (s.setFlag f).stack = s.stack := rfl
@[simp] theorem State.setFlag_dt : (s.setFlag f).dt = s.dt := rfl
@[simp] theorem State.setFlag_disp : (s.setFlag f).disp = s.disp := rfl
@[simp] theorem State.setFlag_key : (s.setFlag f).key = s.key := rfl
@[simp] theorem State.setFlag_mem : (s.setFlag f).mem = s.mem := rfl
@[simp] theorem State.setFlag_run : (s.setFlag f).run = s.run := rfl
@[simp] theorem State.setFlag_rand : (s.setFlag f).rand = s.rand := rfl
@[simp] theorem State.setFlag_displayChanged : (s.setFlag f).displayChanged = s.displayChanged := rfl
@[simp] theorem State.setFlag_unknown : (s.setFlag f).unknown = s.unknown := rfl
@[simp] theorem State.setFlag_inputs : (s.setFlag f).inputs = s.inputs := rfl
@[simp] theorem State.setFlag_steps : (s.setFlag f).steps = s.steps := rfl

end

section
variable (s : State) (x : RegIdx) (b : Byte) (f : Bool)

@[simp] theorem State.setRegFlag_i : (s.setRegFlag x b f).i = s.i := rfl
@[simp] theorem State.setRegFlag_pc : (s.setRegFlag x b f).pc = s.pc := rfl
@[simp] theorem State.setRegFlag_sp : (s.setRegFlag x b f).sp = s.sp := rfl
@[simp] theorem State.setRegFlag_stack : (s.setRegFlag x b f).stack = s.stack := rfl
@[simp] theorem State.setRegFlag_dt : (s.setRegFlag x b f).dt = s.dt := rfl
@[simp] theorem State.setRegFlag_disp : (s.setRegFlag x b f).disp = s.disp := rfl
@[simp] theorem State.setRegFlag_key : (s.setRegFlag x b f).key = s.key := rfl
@[simp] theorem State.setRegFlag_mem : (s.setRegFlag x b f).mem = s.mem := rfl
@[simp] theorem State.setRegFlag_run : (s.setRegFlag x b f).run = s.run := rfl
@[simp] theorem State.setRegFlag_rand : (s.setRegFlag x b f).rand = s.rand := rfl
@[simp] theorem State.setRegFlag_displayChanged : (s.setRegFlag x b f).displayChanged = s.displayChanged := rfl
@[simp] theorem State.setRegFlag_unknown : (s.setRegFlag x b f).unknown = s.unknown := rfl
@[simp] theorem State.setRegFlag_inputs : (s.setRegFlag x b f).inputs = s.inputs := rfl
@[simp] theorem State.setRegFlag_steps : (s.setRegFlag x b f).steps = s.steps := rfl

end

section
variable (s : State) (r : HaltReason)

@[simp] theorem State.halt_v : (s.halt r).v = s.v := rfl
@[simp] theorem State.halt_i : (s.halt r).i = s.i := rfl
@[simp] theorem State.halt_pc : (s.halt r).pc = s.pc := rfl
@[simp] theorem State.halt_sp : (s.halt r).sp = s.sp := rfl
@[simp] theorem State.halt_stack : (s.halt r).stack = s.stack := rfl
@[simp] theorem State.halt_dt : (s.halt r).dt = s.dt := rfl
@[simp] theorem State.halt_disp : (s.halt r).disp = s.disp := rfl
@[simp] theorem State.halt_key : (s.halt r).key = s.key := rfl
@[simp] theorem State.halt_mem : (s.halt r).mem = s.mem := rfl
@[simp] theorem State.halt_run : (s.halt r).run = (.halted r) := rfl
@[simp] theorem State.halt_rand : (s.halt r).rand = s.rand := rfl
@[simp] theorem State.halt_displayChanged : (s.halt r).displayChanged = s.displayChanged := rfl
@[simp] theorem State.halt_unknown : (s.halt r).unknown = s.unknown := rfl
@[simp] theorem State.halt_inputs : (s.halt r).inputs = s.inputs := rfl
@[simp] theorem State.halt_steps : (s.halt r).steps = s.steps := rfl
@[simp] theorem State.halt_reg (q : RegIdx) : (s.halt r).reg q = s.reg q := rfl

end

section
variable (s : State) (c : Control)

@[simp] theorem State.advance_v : (s.advance c).v = s.v := rfl
@[simp] theorem State.advance_i : (s.advance c).i = s.i := rfl
@[simp] theorem State.advance_pc : (s.advance c).pc = (c.target s.pc) := rfl
@[simp] theorem State.advance_sp : (s.advance c).sp = s.sp := rfl
@[simp] theorem State.advance_stack : (s.advance c).stack = s.stack := rfl
@[simp] theorem State.advance_dt : (s.advance c).dt = s.dt := rfl
@[simp] theorem State.advance_disp : (s.advance c).disp = s.disp := rfl
@[simp] theorem State.advance_key : (s.advance c).key = s.key := rfl
@[simp] theorem State.advance_mem : (s.advance c).mem = s.mem := rfl
@[simp] theorem State.advance_run : (s.advance c).run = s.run := rfl
@[simp] theorem State.advance_rand : (s.advance c).rand = s.rand := rfl
@[simp] theorem State.advance_displayChanged : (s.advance c).displayChanged = s.displayChanged := rfl
@[simp] theorem State.advance_unknown : (s.advance c).unknown = s.unknown := rfl
@[simp] theorem State.advance_inputs : (s.advance c).inputs = s.inputs := rfl
@[simp] theorem State.advance_steps : (s.advance c).steps = s.steps := rfl
@[simp] theorem State.advance_reg (q : RegIdx) : (s.advance c).reg q = s.reg q := rfl

end

section
variable (s : State)

@[simp] theorem State.checkPc_v : s.checkPc.v = s.v := rfl
@[simp] theorem State.checkPc_i : s.checkPc.i = s.i := rfl
@[simp] theorem State.checkPc_pc : s.checkPc.pc = s.pc := rfl
@[simp] theorem State.checkPc_sp : s.checkPc.sp = s.sp := rfl
@[simp] theorem State.checkPc_stack : s.checkPc.stack = s.stack := rfl
@[simp] theorem State.checkPc_dt : s.checkPc.dt = s.dt := rfl
@[simp] theorem State.checkPc_disp : s.checkPc.disp = s.disp := rfl
@[simp] theorem State.checkPc_key : s.checkPc.key = s.key := rfl
@[simp] theorem State.checkPc_mem : s.checkPc.mem = s.mem := rfl
@[simp] theorem State.checkPc_run : s.checkPc.run = (if Config.memSize ≤ s.pc.toNat then .halted .pcOutOfBounds else s.run) := rfl
@[simp] theorem State.checkPc_rand : s.checkPc.rand = s.rand := rfl
@[simp] theorem State.checkPc_displayChanged : s.checkPc.displayChanged = s.displayChanged := rfl
@[simp] theorem State.checkPc_unknown : s.checkPc.unknown = s.unknown := rfl
@[simp] theorem State.checkPc_inputs : s.checkPc.inputs = s.inputs := rfl
@[simp] theorem State.checkPc_steps : s.checkPc.steps = s.steps := rfl
@[simp] theorem State.checkPc_reg (q : RegIdx) : s.checkPc.reg q = s.reg q := rfl

end

section
variable (s : State)

@[simp] theorem State.takeInput_v : s.takeInput.v = s.v := rfl
@[simp] theorem State.takeInput_i : s.takeInput.i = s.i := rfl
@[simp] theorem State.takeInput_pc : s.takeInput.pc = s.pc := rfl
@[simp] theorem State.takeInput_sp : s.takeInput.sp = s.sp := rfl
@[simp] theorem State.takeInput_stack : s.takeInput.stack = s.stack := rfl
@[simp] theorem State.takeInput_dt : s.takeInput.dt = s.dt := rfl
@[simp] theorem State.takeInput_disp : s.takeInput.disp = s.disp := rfl
@[simp] theorem State.takeInput_key : s.takeInput.key = s.key := rfl
@[simp] theorem State.takeInput_mem : s.takeInput.mem = s.mem := rfl
@[simp] theorem State.takeInput_run : s.takeInput.run = s.run := rfl
@[simp] theorem State.takeInput_rand : s.takeInput.rand = s.rand := rfl
@[simp] theorem State.takeInput_displayChanged : s.takeInput.displayChanged = s.displayChanged := rfl
@[simp] theorem State.takeInput_unknown : s.takeInput.unknown = s.unknown := rfl
@[simp] theorem State.takeInput_inputs : s.takeInput.inputs = (s.inputs.tail) := rfl
@[simp] theorem State.takeInput_steps : s.takeInput.steps = (s.steps + 1) := rfl
@[simp] theorem State.takeInput_reg (q : RegIdx) : s.takeInput.reg q = s.reg q := rfl

end

section
variable (s : State) (k : Keys) (r : Byte)

@[simp] theorem State.latch_v : (s.latch k r).v = s.v := rfl
@[simp] theorem State.latch_i : (s.latch k r).i = s.i := rfl
@[simp] theorem State.latch_pc : (s.latch k r).pc = s.pc := rfl
@[simp] theorem State.latch_sp : (s.latch k r).sp = s.sp := rfl
@[simp] theorem State.latch_stack : (s.latch k r).stack = s.stack := rfl
@[simp] theorem State.latch_dt : (s.latch k r).dt = s.dt := rfl
@[simp] theorem State.latch_disp : (s.latch k r).disp = s.disp := rfl
@[simp] theorem State.latch_key : (s.latch k r).key = (k) := rfl
@[simp] theorem State.latch_mem : (s.latch k r).mem = s.mem := rfl
@[simp] theorem State.latch_run : (s.latch k r).run = s.run := rfl
@[simp] theorem State.latch_rand : (s.latch k r).rand = (r) := rfl
@[simp] theorem State.latch_displayChanged : (s.latch k r).displayChanged = (false) := rfl
@[simp] theorem State.latch_unknown : (s.latch k r).unknown = (none) := rfl
@[simp] theorem State.latch_inputs : (s.latch k r).inputs = s.inputs := rfl
@[simp] theorem State.latch_steps : (s.latch k r).steps = s.steps := rfl
@[simp] theorem State.latch_reg (q : RegIdx) : (s.latch k r).reg q = s.reg q := rfl

end

section
variable (s : State)

@[simp] theorem State.tickTimer_v : s.tickTimer.v = s.v := rfl
@[simp] theorem State.tickTimer_i : s.tickTimer.i = s.i := rfl
@[simp] theorem State.tickTimer_pc : s.tickTimer.pc = s.pc := rfl
@[simp] theorem State.tickTimer_sp : s.tickTimer.sp = s.sp := rfl
@[simp] theorem State.tickTimer_stack : s.tickTimer.stack = s.stack := rfl
@[simp] theorem State.tickTimer_dt : s.tickTimer.dt = (if s.dt = 0 then 0 else s.dt - 1) := rfl
@[simp] theorem State.tickTimer_disp : s.tickTimer.disp = s.disp := rfl
@[simp] theorem State.tickTimer_key : s.tickTimer.key = s.key := rfl
@[simp] theorem State.tickTimer_mem : s.tickTimer.mem = s.mem := rfl
@[simp] theorem State.tickTimer_run : s.tickTimer.run = s.run := rfl
@[simp] theorem State.tickTimer_rand : s.tickTimer.rand = s.rand := rfl
@[simp] theorem State.tickTimer_displayChanged : s.tickTimer.displayChanged = s.displayChanged := rfl
@[simp] theorem State.tickTimer_unknown : s.tickTimer.unknown = s.unknown := rfl
@[simp] theorem State.tickTimer_inputs : s.tickTimer.inputs = s.inputs := rfl
@[simp] theorem State.tickTimer_steps : s.tickTimer.steps = s.steps := rfl
@[simp] theorem State.tickTimer_reg (q : RegIdx) : s.tickTimer.reg q = s.reg q := rfl

end

section
variable (s : State) (a : Nat) (bs : List Byte)

@[simp] theorem State.storeBytes_v : (s.storeBytes a bs).v = s.v := rfl
@[simp] theorem State.storeBytes_i : (s.storeBytes a bs).i = s.i := rfl
@[simp] theorem State.storeBytes_pc : (s.storeBytes a bs).pc = s.pc := rfl
@[simp] theorem State.storeBytes_sp : (s.storeBytes a bs).sp = s.sp := rfl
@[simp] theorem State.storeBytes_stack : (s.storeBytes a bs).stack = s.stack := rfl
@[simp] theorem State.storeBytes_dt : (s.storeBytes a bs).dt = s.dt := rfl
@[simp] theorem State.storeBytes_disp : (s.storeBytes a bs).disp = s.disp := rfl
@[simp] theorem State.storeBytes_key : (s.storeBytes a bs).key = s.key := rfl
@[simp] theorem State.storeBytes_mem : (s.storeBytes a bs).mem = (s.mem.writeBytes a bs) := rfl
@[simp] theorem State.storeBytes_run : (s.storeBytes a bs).run = s.run := rfl
@[simp] theorem State.storeBytes_rand : (s.storeBytes a bs).rand = s.rand := rfl
@[simp] theorem State.storeBytes_displayChanged : (s.storeBytes a bs).displayChanged = s.displayChanged := rfl
@[simp] theorem State.storeBytes_unknown : (s.storeBytes a bs).unknown = s.unknown := rfl
@[simp] theorem State.storeBytes_inputs : (s.storeBytes a bs).inputs = s.inputs := rfl
@[simp] theorem State.storeBytes_steps : (s.storeBytes a bs).steps = s.steps := rfl
@[simp] theorem State.storeBytes_reg (q : RegIdx) : (s.storeBytes a bs).reg q = s.reg q := rfl

end

section
variable (s : State) (a b : Byte) (n : Nat)

@[simp] theorem State.drawAt_i : (s.drawAt a b n).i = s.i := rfl
@[simp] theorem State.drawAt_pc : (s.drawAt a b n).pc = s.pc := rfl
@[simp] theorem State.drawAt_sp : (s.drawAt a b n).sp = s.sp := rfl
@[simp] theorem State.drawAt_stack : (s.drawAt a b n).stack = s.stack := rfl
@[simp] theorem State.drawAt_dt : (s.drawAt a b n).dt = s.dt := rfl
@[simp] theorem State.drawAt_disp : (s.drawAt a b n).disp = ((drawSprite s.mem s.i.toNat a b n s.disp).1) := rfl
@[simp] theorem State.drawAt_key : (s.drawAt a b n).key = s.key := rfl
@[simp] theorem State.drawAt_mem : (s.drawAt a b n).mem = s.mem := rfl
@[simp] theorem State.drawAt_run : (s.drawAt a b n).run = s.run := rfl
@[simp] theorem State.drawAt_rand : (s.drawAt a b n).rand = s.rand := rfl
@[simp] theorem State.drawAt_displayChanged : (s.drawAt a b n).displayChanged = (true) := rfl
@[simp] theorem State.drawAt_unknown : (s.drawAt a b n).unknown = s.unknown := rfl
@[simp] theorem State.drawAt_inputs : (s.drawAt a b n).inputs = s.inputs := rfl
@[simp] theorem State.drawAt_steps : (s.drawAt a b n).steps = s.steps := rfl

end

end Sys2Proof.Machine
end

