-- ==== Sys2Proof/Laws/Ops.lean ====
section
/-! SUPPORT. What each shared operation does, said once: registers, range check, stack, fetch, the end of a handler,
load. -/

namespace Sys2Proof.Machine

/-! Registers. -/

@[simp] theorem State.reg_setReg_same (s : State) (x : RegIdx) (b : Byte) : (s.setReg x b).reg x = b := by
  simp [State.reg, State.setReg]

theorem State.reg_setReg_of_ne (s : State) {x r : RegIdx} (h : r ≠ x) (b : Byte) :
    (s.setReg x b).reg r = s.reg r := by
  simp only [State.reg, State.setReg]
  exact Vector.getElem_set_ne _ _ fun e => h (Fin.ext e.symm)

@[simp] theorem State.reg_setFlag_vf (s : State) (f : Bool) : (s.setFlag f).reg vf = flagByte f :=
  s.reg_setReg_same vf _

theorem State.reg_setFlag_of_ne (s : State) {r : RegIdx} (h : r ≠ vf) (f : Bool) : (s.setFlag f).reg r = s.reg r :=
  s.reg_setReg_of_ne h _

/-- After a flag-writing ALU instruction VF is the flag, also when VF is the destination. -/
@[simp] theorem State.reg_setRegFlag_vf (s : State) (x : RegIdx) (b : Byte) (f : Bool) :
    (s.setRegFlag x b f).reg vf = flagByte f := State.reg_setFlag_vf _ _

theorem State.reg_setRegFlag_dest (s : State) {x : RegIdx} (h : x ≠ vf) (b : Byte) (f : Bool) :
    (s.setRegFlag x b f).reg x = b := by
  rw [State.setRegFlag, State.reg_setFlag_of_ne _ h, State.reg_setReg_same]

theorem State.reg_setRegFlag_of_ne (s : State) {x r : RegIdx} (h : r ≠ x) (hv : r ≠ vf) (b : Byte) (f : Bool) :
    (s.setRegFlag x b f).reg r = s.reg r := by
  rw [State.setRegFlag, State.reg_setFlag_of_ne _ hv, State.reg_setReg_of_ne _ h]

/-- A Draw writes no register but VF. -/
theorem State.reg_drawAt_of_ne (s : State) {r : RegIdx} (h : r ≠ vf) (a b : Byte) (n : Nat) :
    (s.drawAt a b n).reg r = s.reg r := s.reg_setFlag_of_ne h _

/-- A Draw leaves the collision flag in VF. -/
theorem State.reg_drawAt_vf (s : State) (a b : Byte) (n : Nat) :
    (s.drawAt a b n).reg vf = flagByte (drawSprite s.mem s.i.toNat a b n s.disp).2 := s.reg_setFlag_vf _

theorem regAt_of_lt {j : Nat} (h : j < 16) : regAt j = ⟨j, h⟩ := Fin.ext (Nat.mod_eq_of_lt h)

@[simp] theorem regAt_val (r : RegIdx) : regAt r.val = r := regAt_of_lt r.isLt

@[simp] theorem State.firstRegs_length (s : State) (n : Nat) : (s.firstRegs n).length = n := by simp [State.firstRegs]

theorem State.firstRegs_getElem (s : State) {n j : Nat} (h : j < (s.firstRegs n).length) :
    (s.firstRegs n)[j] = s.reg (regAt j) := by simp [State.firstRegs]

/-- Loading registers writes no field but `v`. -/
theorem State.loadRegs_fields (s : State) (base n : Nat) : { s.loadRegs base n with v := s.v } = s := by
  induction n with
  | zero => rfl
  | succ n ih =>
    simp only [State.loadRegs, List.range_succ, List.foldl_append, List.foldl_cons, List.foldl_nil, State.setReg]
    exact ih

/-- The registers below the count are loaded from memory, the others kept. -/
theorem State.loadRegs_reg (s : State) (base : Nat) {n : Nat} (hn : n ≤ 16) (r : RegIdx) :
    (s.loadRegs base n).reg r = if r.val < n then s.mem.read (base + r.val) else s.reg r := by
  induction n with
  | zero => rfl
  | succ n ih =>
    have step : s.loadRegs base (n + 1) = (s.loadRegs base n).setReg (regAt n) (s.mem.read (base + n)) := by
      simp [State.loadRegs, List.range_succ]
    rw [step]
    by_cases e : r = regAt n
    · subst e
      rw [State.reg_setReg_same, regAt_of_lt (by omega : n < 16), if_pos (Nat.lt_succ_self n)]
    · have hne : r.val ≠ n := fun h => e (by rw [← h, regAt_val])
      rw [State.reg_setReg_of_ne _ e, ih (by omega)]
      by_cases h : r.val < n
      · rw [if_pos h, if_pos (by omega)]
      · rw [if_neg h, if_neg (by omega)]

/-! The range check. -/

/-- 44_index_memory.md R204: no address out of range, or the lowest one, which is `max(base, 4096)`. -/
theorem outOfRange_eq (base count : Nat) :
    outOfRange base count =
      if count = 0 ∨ base + count ≤ 4096 then none else some (max base 4096) := by
  have unfolded : outOfRange base count =
      ((List.range count).map (fun j => base + j)).find? (fun a => decide (4096 ≤ a)) := rfl
  rw [unfolded]
  clear unfolded
  induction count with
  | zero => simp
  | succ n ih =>
    rw [List.range_succ, List.map_append, List.find?_append, ih]
    by_cases h : n = 0 ∨ base + n ≤ 4096
    · rw [if_pos h]
      by_cases h' : 4096 ≤ base + n
      · have hm : base + n = max base 4096 := by omega
        rw [if_neg (by omega)]
        simp [hm]
      · rw [if_pos (by omega)]
        simp [h']
    · rw [if_neg h, if_neg (by omega)]
      rfl

theorem outOfRange_none {base count : Nat} (h : count = 0 ∨ base + count ≤ 4096) : outOfRange base count = none := by
  rw [outOfRange_eq, if_pos h]

theorem outOfRange_some {base count : Nat} (hc : 0 < count) (h : 4096 < base + count) :
    outOfRange base count = some (max base 4096) := by
  rw [outOfRange_eq, if_neg (by omega)]

/-! The call stack. -/

theorem State.push_of_lt (s : State) (a : Word) (h : s.sp.val < 16) :
    s.push a = some { s with stack := s.stack.set s.sp.val a, sp := ⟨s.sp.val + 1, by omega⟩ } := dif_pos h

theorem State.push_of_full (s : State) (a : Word) (h : s.sp.val = 16) : s.push a = none :=
  dif_neg (by omega)

theorem State.pop_of_pos (s : State) (h : 0 < s.sp.val) :
    s.pop = some (s.stack[s.sp.val - 1]'(by omega), { s with sp := ⟨s.sp.val - 1, by omega⟩ }) := dif_pos h

theorem State.pop_of_empty (s : State) (h : s.sp.val = 0) : s.pop = none := dif_neg (by omega)

/-! The end of a handler. -/

theorem finish_eq (c : Control) (s : State) : finish c s = .next (s.advance c).checkPc := rfl

theorem raise_eq (r : HaltReason) (s : State) : raise r s = .next (s.halt r) := rfl

/-! Fetch. -/

theorem State.fetch_of_le (s : State) (h : s.pc.toNat ≤ 0xFFE) :
    s.fetch = some (wordOfBytes (s.mem.read s.pc.toNat) (s.mem.read (s.pc.toNat + 1))) :=
  if_neg (by simp only [Config.memSize]; omega)

theorem State.fetch_of_gt (s : State) (h : 0xFFF ≤ s.pc.toNat) : s.fetch = none :=
  if_pos (by simp only [Config.memSize]; omega)

/-- Phases 1 and 3 do not touch what fetch reads. -/
@[simp] theorem State.fetch_latch (s : State) (k : Keys) (r : Byte) : (s.latch k r).fetch = s.fetch := rfl

@[simp] theorem State.fetch_takeInput (s : State) : s.takeInput.fetch = s.fetch := rfl

theorem wordOfBytes_toNat (hi lo : Byte) : (wordOfBytes hi lo).toNat = hi.toNat * 256 + lo.toNat := by
  have h1 := lo.isLt
  simp only [wordOfBytes, BitVec.toNat_append]
  rw [← Nat.shiftLeft_add_eq_or_of_lt (by simpa using h1), Nat.shiftLeft_eq]

/-! Load. -/

theorem load_of_le {image : List Byte} (h : image.length ≤ 3584) (s : State) :
    load image s = .next { s with mem := s.mem.writeBytes 0x200 image } :=
  if_neg (by simp only [Config.progMax]; omega)

theorem load_of_gt {image : List Byte} (h : 3584 < image.length) (s : State) : load image s = .fault .loadError :=
  if_pos (by simpa only [Config.progMax] using h)

end Sys2Proof.Machine
end

