-- ==== Sys2Proof/Laws/Screen.lean ====
section
/-! SUPPORT. What a Draw does to every pixel and to the collision flag (41_display.md R141): the loop over rows and
bits flips exactly the pixels the sprite covers, and no pixel is written twice. -/

namespace Sys2Proof.Machine

theorem Display.pixel_xorPixel (d : Display) (x px : Fin 64) (y py : Fin 32) (b : Bool) :
    (d.xorPixel x y b).pixel px py = (d.pixel px py ^^ (px == x && py == y && b)) := by
  simp only [Display.pixel, Display.xorPixel]
  by_cases hy : py = y
  · subst hy
    by_cases hx : px = x
    · subst hx; simp
    · have : x.val ≠ px.val := fun e => hx (Fin.ext e.symm)
      simp [this, beq_eq_false_iff_ne.mpr hx]
  · have : y.val ≠ py.val := fun e => hy (Fin.ext e.symm)
    simp [this, beq_eq_false_iff_ne.mpr hy]

@[simp] theorem Display.pixel_blank (x : Fin 64) (y : Fin 32) : Display.blank.pixel x y = false := by
  simp [Display.pixel, Display.blank]

/-- Two displays with the same pixels are the same. -/
theorem Display.ext_pixel {d e : Display} (h : ∀ x y, d.pixel x y = e.pixel x y) : d = e := by
  apply Vector.ext; intro y hy
  apply Vector.ext; intro x hx
  exact h ⟨x, hx⟩ ⟨y, hy⟩

theorem column_injective (a : Byte) {j k : Nat} (hj : j < 64) (hk : k < 64) (h : column a j = column a k) : j = k := by
  have := congrArg Fin.val h
  simp only [column] at this
  omega

theorem rowOf_injective (b : Byte) {j k : Nat} (hj : j < 32) (hk : k < 32) (h : rowOf b j = rowOf b k) : j = k := by
  have := congrArg Fin.val h
  simp only [rowOf] at this
  omega

/-- The first `k` bits of a sprite row cover the column. -/
def rowCovers (a : Byte) (byte : Byte) (k : Nat) (px : Fin 64) : Bool :=
  (List.range k).any fun bit => px == column a bit && spriteBit byte bit

/-- The first `n` rows of a sprite cover the pixel. -/
def spriteCovers (m : Memory) (base : Nat) (a b : Byte) (n : Nat) (px : Fin 64) (py : Fin 32) : Bool :=
  (List.range n).any fun row => py == rowOf b row && rowCovers a (m.read (base + row)) 8 px

theorem rowCovers_succ (a byte : Byte) (k : Nat) (px : Fin 64) :
    rowCovers a byte (k + 1) px = (rowCovers a byte k px || (px == column a k && spriteBit byte k)) := by
  simp [rowCovers, List.range_succ]

/-- A bit further on covers a column of its own. -/
theorem rowCovers_column (a byte : Byte) {k : Nat} (hk : k < 64) : rowCovers a byte k (column a k) = false := by
  simp only [rowCovers, List.any_eq_false, List.mem_range]
  intro j hj
  have : column a k ≠ column a j := fun e => by have := column_injective a hk (by omega) e; omega
  simp [this]

theorem drawBits_pixel (a b : Byte) (row : Nat) (byte : Byte) (d : Display) (f : Bool) {k : Nat} (hk : k ≤ 64)
    (px : Fin 64) (py : Fin 32) :
    ((List.range k).foldl (drawBit a b row byte) (d, f)).1.pixel px py =
      (d.pixel px py ^^ (py == rowOf b row && rowCovers a byte k px)) := by
  induction k with
  | zero => simp [rowCovers]
  | succ k ih =>
    rw [List.range_succ, List.foldl_append, List.foldl_cons, List.foldl_nil, drawBit, Display.pixel_xorPixel,
      ih (by omega), rowCovers_succ]
    by_cases hx : px = column a k
    · subst hx
      rw [rowCovers_column a byte (by omega)]
      cases d.pixel (column a k) py <;> cases py == rowOf b row <;> cases spriteBit byte k <;> simp
    · simp [beq_eq_false_iff_ne.mpr hx]

theorem drawBits_flag (a b : Byte) (row : Nat) (byte : Byte) (d : Display) (f : Bool) {k : Nat} (hk : k ≤ 64) :
    ((List.range k).foldl (drawBit a b row byte) (d, f)).2 =
      (f || (List.range k).any fun bit => spriteBit byte bit && d.pixel (column a bit) (rowOf b row)) := by
  induction k with
  | zero => simp
  | succ k ih =>
    rw [List.range_succ, List.foldl_append, List.foldl_cons, List.foldl_nil, drawBit]
    simp only
    rw [ih (by omega), drawBits_pixel a b row byte d f (by omega), rowCovers_column a byte (by omega)]
    simp [Bool.or_assoc]

theorem spriteCovers_succ (m : Memory) (base : Nat) (a b : Byte) (n : Nat) (px : Fin 64) (py : Fin 32) :
    spriteCovers m base a b (n + 1) px py =
      (spriteCovers m base a b n px py || (py == rowOf b n && rowCovers a (m.read (base + n)) 8 px)) := by
  simp [spriteCovers, List.range_succ]

theorem spriteCovers_rowOf (m : Memory) (base : Nat) (a b : Byte) {n : Nat} (hn : n < 32) (px : Fin 64) :
    spriteCovers m base a b n px (rowOf b n) = false := by
  simp only [spriteCovers, List.any_eq_false, List.mem_range]
  intro j hj
  have : rowOf b n ≠ rowOf b j := fun e => by have := rowOf_injective b hn (by omega) e; omega
  simp [this]

/-- After a Draw a pixel differs from before exactly where the sprite covers it. -/
theorem drawSprite_pixel (m : Memory) (base : Nat) (a b : Byte) {n : Nat} (hn : n ≤ 32) (d : Display)
    (px : Fin 64) (py : Fin 32) :
    (drawSprite m base a b n d).1.pixel px py = (d.pixel px py ^^ spriteCovers m base a b n px py) := by
  induction n with
  | zero => simp [drawSprite, spriteCovers]
  | succ n ih =>
    have step : drawSprite m base a b (n + 1) d = drawRow m base a b (drawSprite m base a b n d) n := by
      simp [drawSprite, List.range_succ]
    rw [step, drawRow, drawBits_pixel a b n _ _ _ (by omega), ih (by omega), spriteCovers_succ]
    by_cases hy : py = rowOf b n
    · subst hy
      rw [spriteCovers_rowOf m base a b (by omega)]
      cases d.pixel px (rowOf b n) <;> simp
    · simp [beq_eq_false_iff_ne.mpr hy]

/-- The collision flag of a Draw: some covered pixel was set before it. -/
theorem drawSprite_flag (m : Memory) (base : Nat) (a b : Byte) {n : Nat} (hn : n ≤ 32) (d : Display) :
    (drawSprite m base a b n d).2 = true ↔
      ∃ px py, spriteCovers m base a b n px py = true ∧ d.pixel px py = true := by
  induction n with
  | zero => simp [drawSprite, spriteCovers]
  | succ n ih =>
    have step : drawSprite m base a b (n + 1) d = drawRow m base a b (drawSprite m base a b n d) n := by
      simp [drawSprite, List.range_succ]
    have flag := drawBits_flag a b n (m.read (base + n)) (drawSprite m base a b n d).1
      (drawSprite m base a b n d).2 (k := 8) (by omega)
    rw [step, drawRow, flag, Bool.or_eq_true, ih (by omega)]
    constructor
    · rintro (⟨px, py, hc, hp⟩ | h)
      · exact ⟨px, py, by simp [spriteCovers_succ, hc], hp⟩
      · obtain ⟨bit, hbit, h⟩ := List.any_eq_true.mp h
        obtain ⟨hs, hp⟩ := Bool.and_eq_true_iff.mp h
        rw [drawSprite_pixel m base a b (by omega), spriteCovers_rowOf m base a b (by omega), Bool.xor_false] at hp
        refine ⟨column a bit, rowOf b n, ?_, hp⟩
        rw [spriteCovers_succ, spriteCovers_rowOf m base a b (by omega)]
        simp only [BEq.rfl, Bool.true_and, Bool.false_or]
        exact List.any_eq_true.mpr ⟨bit, hbit, by simp [hs]⟩
    · rintro ⟨px, py, hc, hp⟩
      rw [spriteCovers_succ, Bool.or_eq_true] at hc
      rcases hc with hc | hc
      · exact .inl ⟨px, py, hc, hp⟩
      · obtain ⟨hy, hr⟩ := Bool.and_eq_true_iff.mp hc
        obtain ⟨bit, hbit, h⟩ := List.any_eq_true.mp hr
        obtain ⟨hx, hs⟩ := Bool.and_eq_true_iff.mp h
        obtain rfl := eq_of_beq hy
        obtain rfl := eq_of_beq hx
        refine .inr (List.any_eq_true.mpr ⟨bit, hbit, ?_⟩)
        rw [drawSprite_pixel m base a b (by omega), spriteCovers_rowOf m base a b (by omega), hs, hp]
        rfl

/-- The covered pixels in the words of 41_display.md R141. -/
theorem spriteCovers_iff (m : Memory) (base : Nat) (a b : Byte) (n : Nat) (px : Fin 64) (py : Fin 32) :
    spriteCovers m base a b n px py = true ↔
      ∃ row, row < n ∧ ∃ bit, bit < 8 ∧ px.val = (a.toNat + bit) % 64 ∧ py.val = (b.toNat + row) % 32 ∧
        (m.read (base + row)).getLsbD (7 - bit) = true := by
  simp only [spriteCovers, rowCovers, List.any_eq_true, List.mem_range, Bool.and_eq_true, beq_iff_eq, Fin.ext_iff,
    column, rowOf, spriteBit]
  constructor
  · rintro ⟨row, hr, hy, bit, hb, hx, hs⟩; exact ⟨row, hr, bit, hb, hx, hy, hs⟩
  · rintro ⟨row, hr, bit, hb, hx, hy, hs⟩; exact ⟨row, hr, hy, bit, hb, hx, hs⟩

end Sys2Proof.Machine
end

