-- ==== Sys2Proof/Laws/Exec.lean ====
section
/-! SUPPORT. What a handler and a step can do, said once. -/

namespace Sys2Proof.Machine

/-- What no handler writes: `PC` and `run` (that is `finish`'s and `raise`'s), `KEY`, FONT, and the step's arguments;
and memory stays canonical. -/
structure HandlerKeeps (s u : State) : Prop where
  pc : u.pc = s.pc
  run : u.run = s.run
  key : u.key = s.key
  rand : u.rand = s.rand
  inputs : u.inputs = s.inputs
  steps : u.steps = s.steps
  font : u.mem.font = s.mem.font
  wf : s.mem.wf → u.mem.wf

theorem HandlerKeeps.refl (s : State) : HandlerKeeps s s := ⟨rfl, rfl, rfl, rfl, rfl, rfl, rfl, id⟩

/-- A handler ends in `finish` on a state that keeps what `HandlerKeeps` lists, or raises a fatal error on the state it
was given (40_step_cycle.md R125, R131). -/
def EndsAs (s : State) (r : Result) : Prop :=
  (∃ c u, r = finish c u ∧ HandlerKeeps s u) ∨ ∃ reason, r = raise reason s

theorem endsAs_finish {s u : State} (c : Control) (h : HandlerKeeps s u) : EndsAs s (finish c u) := .inl ⟨c, u, rfl, h⟩

theorem endsAs_raise (s : State) (reason : HaltReason) : EndsAs s (raise reason s) := .inr ⟨reason, rfl⟩

theorem handlerKeeps_setReg (s : State) (x : RegIdx) (b : Byte) : HandlerKeeps s (s.setReg x b) :=
  ⟨rfl, rfl, rfl, rfl, rfl, rfl, rfl, id⟩

theorem handlerKeeps_setRegFlag (s : State) (x : RegIdx) (b : Byte) (f : Bool) :
    HandlerKeeps s (s.setRegFlag x b f) := ⟨rfl, rfl, rfl, rfl, rfl, rfl, rfl, id⟩

theorem handlerKeeps_drawAt (s : State) (a b : Byte) (n : Nat) : HandlerKeeps s (s.drawAt a b n) :=
  ⟨rfl, rfl, rfl, rfl, rfl, rfl, rfl, id⟩

theorem handlerKeeps_storeBytes (s : State) (a : Nat) (bs : List Byte) : HandlerKeeps s (s.storeBytes a bs) :=
  ⟨rfl, rfl, rfl, rfl, rfl, rfl, Memory.writeBytes_font _ _ _, fun h => Memory.writeBytes_wf h a bs⟩

theorem handlerKeeps_of_v {s u : State} (h : { u with v := s.v } = s) : HandlerKeeps s u := by
  have field {α : Type} (f : State → α) (hf : f u = f { u with v := s.v }) : f u = f s := hf.trans (congrArg f h)
  refine ⟨field State.pc rfl, field State.run rfl, field State.key rfl, field State.rand rfl, field State.inputs rfl,
    field State.steps rfl, congrArg Memory.font (field State.mem rfl), fun hw => ?_⟩
  rw [field State.mem rfl]
  exact hw

/-- The range-checked instructions: raise, or go on. -/
theorem endsAs_checked {s u : State} (o : Option Nat) (c : Control) (h : HandlerKeeps s u) :
    EndsAs s (match o with | some a => raise (.memoryFault a) s | none => finish c u) := by
  cases o with
  | none => exact endsAs_finish c h
  | some a => exact endsAs_raise s _

/-- Every handler, said once. -/
theorem exec_endsAs (i : Instr) (s : State) : EndsAs s (exec i s) := by
  have same := HandlerKeeps.refl s
  have other {u : State} (hpc : u.pc = s.pc) (hrun : u.run = s.run) (hkey : u.key = s.key) (hrand : u.rand = s.rand)
      (hin : u.inputs = s.inputs) (hst : u.steps = s.steps) (hmem : u.mem = s.mem) : HandlerKeeps s u :=
    ⟨hpc, hrun, hkey, hrand, hin, hst, congrArg _ hmem, fun h => hmem ▸ h⟩
  cases i with
  | clear => exact endsAs_finish _ (other rfl rfl rfl rfl rfl rfl rfl)
  | ret =>
    simp only [exec, execRet, State.pop]
    split
    · exact endsAs_raise s _
    · rename_i h
      split at h
      · cases h; exact endsAs_finish _ (other rfl rfl rfl rfl rfl rfl rfl)
      · cases h
  | jump addr => exact endsAs_finish _ same
  | call addr =>
    simp only [exec, execCall, State.push]
    split
    · exact endsAs_raise s _
    · rename_i h
      split at h
      · cases h; exact endsAs_finish _ (other rfl rfl rfl rfl rfl rfl rfl)
      · cases h
  | skipEqImm x kk => exact endsAs_finish _ same
  | skipNeImm x kk => exact endsAs_finish _ same
  | skipEqReg x y => exact endsAs_finish _ same
  | setImm x kk => exact endsAs_finish _ (handlerKeeps_setReg s x _)
  | addImm x kk => exact endsAs_finish _ (handlerKeeps_setReg s x _)
  | move x y => exact endsAs_finish _ (handlerKeeps_setReg s x _)
  | or x y => exact endsAs_finish _ (handlerKeeps_setReg s x _)
  | and x y => exact endsAs_finish _ (handlerKeeps_setReg s x _)
  | xor x y => exact endsAs_finish _ (handlerKeeps_setReg s x _)
  | addReg x y => exact endsAs_finish _ (handlerKeeps_setRegFlag s x _ _)
  | subReg x y => exact endsAs_finish _ (handlerKeeps_setRegFlag s x _ _)
  | shiftRight x => exact endsAs_finish _ (handlerKeeps_setRegFlag s x _ _)
  | subnReg x y => exact endsAs_finish _ (handlerKeeps_setRegFlag s x _ _)
  | shiftLeft x => exact endsAs_finish _ (handlerKeeps_setRegFlag s x _ _)
  | skipNeReg x y => exact endsAs_finish _ same
  | setIndex addr => exact endsAs_finish _ (other rfl rfl rfl rfl rfl rfl rfl)
  | jumpIndexed addr => exact endsAs_finish _ same
  | random x kk => exact endsAs_finish _ (handlerKeeps_setReg s x _)
  | draw x y n => exact endsAs_checked _ _ (handlerKeeps_drawAt s _ _ _)
  | skipIfKeyDown x =>
    simp only [exec, execSkipIfKeyDown]
    split
    · exact endsAs_raise s _
    · exact endsAs_finish _ same
  | skipIfKeyUp x =>
    simp only [exec, execSkipIfKeyUp]
    split
    · exact endsAs_raise s _
    · exact endsAs_finish _ same
  | getDelay x => exact endsAs_finish _ (handlerKeeps_setReg s x _)
  | setDelay x => exact endsAs_finish _ (other rfl rfl rfl rfl rfl rfl rfl)
  | addIndex x => exact endsAs_finish _ (other rfl rfl rfl rfl rfl rfl rfl)
  | loadFontAddr x => exact endsAs_finish _ (other rfl rfl rfl rfl rfl rfl rfl)
  | storeBCD x => exact endsAs_checked _ _ (handlerKeeps_storeBytes s _ _)
  | dumpRegisters x => exact endsAs_checked _ _ (handlerKeeps_storeBytes s _ _)
  | loadRegisters x => exact endsAs_checked _ _ (handlerKeeps_of_v (s.loadRegs_fields _ _))
  | unknown w => exact endsAs_finish _ (other rfl rfl rfl rfl rfl rfl rfl)

/-- What a step call can do, guards included: refused, a failed fetch, or the handler of the fetched word. -/
theorem stepWith_cases (keys : Keys) (rand : Byte) (s : State) :
    (∃ r, s.run = .halted r ∧ stepWith keys rand s = .refused .stepWhileHalted) ∨
    (s.run = .running ∧ 0xFFF ≤ s.pc.toNat ∧
      stepWith keys rand s = .next ((s.latch keys rand).halt .fetchOutOfBounds)) ∨
    (s.run = .running ∧ s.pc.toNat ≤ 0xFFE ∧
      stepWith keys rand s =
        exec (decodeWord (wordOfBytes (s.mem.read s.pc.toNat) (s.mem.read (s.pc.toNat + 1))))
          (s.latch keys rand).tickTimer) := by
  cases hr : s.run with
  | halted r => exact .inl ⟨r, rfl, by simp [stepWith, hr]⟩
  | running =>
    by_cases h : s.pc.toNat ≤ 0xFFE
    · exact .inr (.inr ⟨rfl, h, by simp [stepWith, hr, State.fetch_of_le s h]⟩)
    · have h' : 0xFFF ≤ s.pc.toNat := by omega
      exact .inr (.inl ⟨rfl, h', by simp [stepWith, hr, State.fetch_of_gt s h', raise_eq]⟩)

end Sys2Proof.Machine
end

