-- ==== Sys2Proof/Laws/PerInstr.lean ====
section
/-! SUPPORT. Laws made one instruction at a time. The family EncodeMatchesRow: the canonical word of an instruction
matches the row of the opcode map that bears its name (30_encoding.md R90, R92). -/

namespace Sys2Proof

/-! The packed words under the masks of 30_encoding.md R90. -/

theorem packA_group (g : BitVec 4) (addr : Addr) : packA g addr &&& 0xF000 = packA g 0 := by
  change (g ++ addr) &&& (BitVec.allOnes 4 ++ 0#12) = g ++ 0#12
  rw [BitVec.and_append, BitVec.and_allOnes, BitVec.and_zero]

theorem packXK_group (g : BitVec 4) (x : Fin 16) (kk : Byte) : packXK g x kk &&& 0xF000 = packXK g 0 0 := by
  change (g ++ (BitVec.ofFin x ++ kk)) &&& (BitVec.allOnes 4 ++ (0#4 ++ 0#8)) = g ++ (0#4 ++ 0#8)
  rw [BitVec.and_append, BitVec.and_append, BitVec.and_allOnes, BitVec.and_zero, BitVec.and_zero]

theorem packXK_key (g : BitVec 4) (x : Fin 16) (kk : Byte) : packXK g x kk &&& 0xF0FF = packXK g 0 kk := by
  change (g ++ (BitVec.ofFin x ++ kk)) &&& (BitVec.allOnes 4 ++ (0#4 ++ BitVec.allOnes 8)) = g ++ (0#4 ++ kk)
  rw [BitVec.and_append, BitVec.and_append, BitVec.and_allOnes, BitVec.and_allOnes, BitVec.and_zero]

theorem packXYN_group (g : BitVec 4) (x y n : Fin 16) : packXYN g x y n &&& 0xF000 = packXYN g 0 0 0 := by
  change (g ++ (BitVec.ofFin x ++ (BitVec.ofFin y ++ BitVec.ofFin n))) &&& (BitVec.allOnes 4 ++ (0#4 ++ (0#4 ++ 0#4))) =
    g ++ (0#4 ++ (0#4 ++ 0#4))
  rw [BitVec.and_append, BitVec.and_append, BitVec.and_append, BitVec.and_allOnes, BitVec.and_zero, BitVec.and_zero,
    BitVec.and_zero]

theorem packXYN_key (g : BitVec 4) (x y n : Fin 16) : packXYN g x y n &&& 0xF00F = packXYN g 0 0 n := by
  change (g ++ (BitVec.ofFin x ++ (BitVec.ofFin y ++ BitVec.ofFin n))) &&&
    (BitVec.allOnes 4 ++ (0#4 ++ (0#4 ++ BitVec.allOnes 4))) = g ++ (0#4 ++ (0#4 ++ BitVec.ofFin n))
  rw [BitVec.and_append, BitVec.and_append, BitVec.and_append, BitVec.and_allOnes, BitVec.and_allOnes, BitVec.and_zero,
    BitVec.and_zero]

/-- Every row that bears the instruction's name is matched by its canonical word. `Unknown` has no row. -/
def Laws.EncodeMatchesRow.Statement (i : Instr) : Prop :=
  ∀ row ∈ opcodeMap, row.mnemonic = i.mnemonic → encode i &&& row.mask = row.bits

/-- The rows that bear a name, found by looking the map through. -/
theorem Laws.encodeMatchesRow_of_filter {i : Instr} {rows : List OpcodeRow}
    (h : opcodeMap.filter (fun row => row.mnemonic == i.mnemonic) = rows)
    (hrows : ∀ row ∈ rows, encode i &&& row.mask = row.bits) : Laws.EncodeMatchesRow.Statement i :=
  fun row hrow hname => hrows row (h ▸ List.mem_filter.mpr ⟨hrow, beq_iff_eq.mpr hname⟩)

theorem Laws.EncodeMatchesRow.clear : Laws.EncodeMatchesRow.Statement .clear :=
  Laws.encodeMatchesRow_of_filter (rows := [⟨"Clear", 0x0000, 0xF00F⟩]) rfl (by decide)

theorem Laws.EncodeMatchesRow.ret : Laws.EncodeMatchesRow.Statement .ret :=
  Laws.encodeMatchesRow_of_filter (rows := [⟨"Return", 0x000E, 0xF00F⟩]) rfl (by decide)

theorem Laws.EncodeMatchesRow.jump (addr : Addr) : Laws.EncodeMatchesRow.Statement (.jump addr) :=
  Laws.encodeMatchesRow_of_filter (rows := [⟨"Jump", 0x1000, 0xF000⟩]) rfl
    (List.forall_mem_singleton.mpr (packA_group _ _))

theorem Laws.EncodeMatchesRow.call (addr : Addr) : Laws.EncodeMatchesRow.Statement (.call addr) :=
  Laws.encodeMatchesRow_of_filter (rows := [⟨"Call", 0x2000, 0xF000⟩]) rfl
    (List.forall_mem_singleton.mpr (packA_group _ _))

theorem Laws.EncodeMatchesRow.skipEqImm (x : RegIdx) (kk : Byte) : Laws.EncodeMatchesRow.Statement (.skipEqImm x kk) :=
  Laws.encodeMatchesRow_of_filter (rows := [⟨"SkipEqImm", 0x3000, 0xF000⟩]) rfl
    (List.forall_mem_singleton.mpr (packXK_group _ _ _))

theorem Laws.EncodeMatchesRow.skipNeImm (x : RegIdx) (kk : Byte) : Laws.EncodeMatchesRow.Statement (.skipNeImm x kk) :=
  Laws.encodeMatchesRow_of_filter (rows := [⟨"SkipNeImm", 0x4000, 0xF000⟩]) rfl
    (List.forall_mem_singleton.mpr (packXK_group _ _ _))

theorem Laws.EncodeMatchesRow.skipEqReg (x : RegIdx) (y : RegIdx) : Laws.EncodeMatchesRow.Statement (.skipEqReg x y) :=
  Laws.encodeMatchesRow_of_filter (rows := [⟨"SkipEqReg", 0x5000, 0xF000⟩]) rfl
    (List.forall_mem_singleton.mpr (packXYN_group _ _ _ _))

theorem Laws.EncodeMatchesRow.setImm (x : RegIdx) (kk : Byte) : Laws.EncodeMatchesRow.Statement (.setImm x kk) :=
  Laws.encodeMatchesRow_of_filter (rows := [⟨"SetImm", 0x6000, 0xF000⟩]) rfl
    (List.forall_mem_singleton.mpr (packXK_group _ _ _))

theorem Laws.EncodeMatchesRow.addImm (x : RegIdx) (kk : Byte) : Laws.EncodeMatchesRow.Statement (.addImm x kk) :=
  Laws.encodeMatchesRow_of_filter (rows := [⟨"AddImm", 0x7000, 0xF000⟩]) rfl
    (List.forall_mem_singleton.mpr (packXK_group _ _ _))

theorem Laws.EncodeMatchesRow.move (x : RegIdx) (y : RegIdx) : Laws.EncodeMatchesRow.Statement (.move x y) :=
  Laws.encodeMatchesRow_of_filter (rows := [⟨"Move", 0x8000, 0xF00F⟩]) rfl
    (List.forall_mem_singleton.mpr (packXYN_key _ _ _ _))

theorem Laws.EncodeMatchesRow.or (x : RegIdx) (y : RegIdx) : Laws.EncodeMatchesRow.Statement (.or x y) :=
  Laws.encodeMatchesRow_of_filter (rows := [⟨"Or", 0x8001, 0xF00F⟩]) rfl
    (List.forall_mem_singleton.mpr (packXYN_key _ _ _ _))

theorem Laws.EncodeMatchesRow.and (x : RegIdx) (y : RegIdx) : Laws.EncodeMatchesRow.Statement (.and x y) :=
  Laws.encodeMatchesRow_of_filter (rows := [⟨"And", 0x8002, 0xF00F⟩]) rfl
    (List.forall_mem_singleton.mpr (packXYN_key _ _ _ _))

theorem Laws.EncodeMatchesRow.xor (x : RegIdx) (y : RegIdx) : Laws.EncodeMatchesRow.Statement (.xor x y) :=
  Laws.encodeMatchesRow_of_filter (rows := [⟨"Xor", 0x8003, 0xF00F⟩]) rfl
    (List.forall_mem_singleton.mpr (packXYN_key _ _ _ _))

theorem Laws.EncodeMatchesRow.addReg (x : RegIdx) (y : RegIdx) : Laws.EncodeMatchesRow.Statement (.addReg x y) :=
  Laws.encodeMatchesRow_of_filter (rows := [⟨"AddReg", 0x8004, 0xF00F⟩]) rfl
    (List.forall_mem_singleton.mpr (packXYN_key _ _ _ _))

theorem Laws.EncodeMatchesRow.subReg (x : RegIdx) (y : RegIdx) : Laws.EncodeMatchesRow.Statement (.subReg x y) :=
  Laws.encodeMatchesRow_of_filter (rows := [⟨"SubReg", 0x8005, 0xF00F⟩]) rfl
    (List.forall_mem_singleton.mpr (packXYN_key _ _ _ _))

theorem Laws.EncodeMatchesRow.shiftRight (x : RegIdx) : Laws.EncodeMatchesRow.Statement (.shiftRight x) :=
  Laws.encodeMatchesRow_of_filter (rows := [⟨"ShiftRight", 0x8006, 0xF00F⟩]) rfl
    (List.forall_mem_singleton.mpr (packXYN_key _ _ _ _))

theorem Laws.EncodeMatchesRow.subnReg (x : RegIdx) (y : RegIdx) : Laws.EncodeMatchesRow.Statement (.subnReg x y) :=
  Laws.encodeMatchesRow_of_filter (rows := [⟨"SubnReg", 0x8007, 0xF00F⟩]) rfl
    (List.forall_mem_singleton.mpr (packXYN_key _ _ _ _))

theorem Laws.EncodeMatchesRow.shiftLeft (x : RegIdx) : Laws.EncodeMatchesRow.Statement (.shiftLeft x) :=
  Laws.encodeMatchesRow_of_filter (rows := [⟨"ShiftLeft", 0x800E, 0xF00F⟩]) rfl
    (List.forall_mem_singleton.mpr (packXYN_key _ _ _ _))

theorem Laws.EncodeMatchesRow.skipNeReg (x : RegIdx) (y : RegIdx) : Laws.EncodeMatchesRow.Statement (.skipNeReg x y) :=
  Laws.encodeMatchesRow_of_filter (rows := [⟨"SkipNeReg", 0x9000, 0xF000⟩]) rfl
    (List.forall_mem_singleton.mpr (packXYN_group _ _ _ _))

theorem Laws.EncodeMatchesRow.setIndex (addr : Addr) : Laws.EncodeMatchesRow.Statement (.setIndex addr) :=
  Laws.encodeMatchesRow_of_filter (rows := [⟨"SetIndex", 0xA000, 0xF000⟩]) rfl
    (List.forall_mem_singleton.mpr (packA_group _ _))

theorem Laws.EncodeMatchesRow.jumpIndexed (addr : Addr) : Laws.EncodeMatchesRow.Statement (.jumpIndexed addr) :=
  Laws.encodeMatchesRow_of_filter (rows := [⟨"JumpIndexed", 0xB000, 0xF000⟩]) rfl
    (List.forall_mem_singleton.mpr (packA_group _ _))

theorem Laws.EncodeMatchesRow.random (x : RegIdx) (kk : Byte) : Laws.EncodeMatchesRow.Statement (.random x kk) :=
  Laws.encodeMatchesRow_of_filter (rows := [⟨"Random", 0xC000, 0xF000⟩]) rfl
    (List.forall_mem_singleton.mpr (packXK_group _ _ _))

theorem Laws.EncodeMatchesRow.draw (x : RegIdx) (y : RegIdx) (n : Fin 16) :
    Laws.EncodeMatchesRow.Statement (.draw x y n) :=
  Laws.encodeMatchesRow_of_filter (rows := [⟨"Draw", 0xD000, 0xF000⟩]) rfl
    (List.forall_mem_singleton.mpr (packXYN_group _ _ _ _))

theorem Laws.EncodeMatchesRow.skipIfKeyDown (x : RegIdx) : Laws.EncodeMatchesRow.Statement (.skipIfKeyDown x) :=
  Laws.encodeMatchesRow_of_filter (rows := [⟨"SkipIfKeyDown", 0xE09E, 0xF0FF⟩]) rfl
    (List.forall_mem_singleton.mpr (packXK_key _ _ _))

theorem Laws.EncodeMatchesRow.skipIfKeyUp (x : RegIdx) : Laws.EncodeMatchesRow.Statement (.skipIfKeyUp x) :=
  Laws.encodeMatchesRow_of_filter (rows := [⟨"SkipIfKeyUp", 0xE0A1, 0xF0FF⟩]) rfl
    (List.forall_mem_singleton.mpr (packXK_key _ _ _))

theorem Laws.EncodeMatchesRow.getDelay (x : RegIdx) : Laws.EncodeMatchesRow.Statement (.getDelay x) :=
  Laws.encodeMatchesRow_of_filter (rows := [⟨"GetDelay", 0xF007, 0xF0FF⟩]) rfl
    (List.forall_mem_singleton.mpr (packXK_key _ _ _))

theorem Laws.EncodeMatchesRow.setDelay (x : RegIdx) : Laws.EncodeMatchesRow.Statement (.setDelay x) :=
  Laws.encodeMatchesRow_of_filter (rows := [⟨"SetDelay", 0xF015, 0xF0FF⟩]) rfl
    (List.forall_mem_singleton.mpr (packXK_key _ _ _))

theorem Laws.EncodeMatchesRow.addIndex (x : RegIdx) : Laws.EncodeMatchesRow.Statement (.addIndex x) :=
  Laws.encodeMatchesRow_of_filter (rows := [⟨"AddIndex", 0xF01E, 0xF0FF⟩]) rfl
    (List.forall_mem_singleton.mpr (packXK_key _ _ _))

theorem Laws.EncodeMatchesRow.loadFontAddr (x : RegIdx) : Laws.EncodeMatchesRow.Statement (.loadFontAddr x) :=
  Laws.encodeMatchesRow_of_filter (rows := [⟨"LoadFontAddr", 0xF029, 0xF0FF⟩]) rfl
    (List.forall_mem_singleton.mpr (packXK_key _ _ _))

theorem Laws.EncodeMatchesRow.storeBCD (x : RegIdx) : Laws.EncodeMatchesRow.Statement (.storeBCD x) :=
  Laws.encodeMatchesRow_of_filter (rows := [⟨"StoreBCD", 0xF033, 0xF0FF⟩]) rfl
    (List.forall_mem_singleton.mpr (packXK_key _ _ _))

theorem Laws.EncodeMatchesRow.dumpRegisters (x : RegIdx) : Laws.EncodeMatchesRow.Statement (.dumpRegisters x) :=
  Laws.encodeMatchesRow_of_filter (rows := [⟨"DumpRegisters", 0xF055, 0xF0FF⟩]) rfl
    (List.forall_mem_singleton.mpr (packXK_key _ _ _))

theorem Laws.EncodeMatchesRow.loadRegisters (x : RegIdx) : Laws.EncodeMatchesRow.Statement (.loadRegisters x) :=
  Laws.encodeMatchesRow_of_filter (rows := [⟨"LoadRegisters", 0xF065, 0xF0FF⟩]) rfl
    (List.forall_mem_singleton.mpr (packXK_key _ _ _))

theorem Laws.EncodeMatchesRow.unknown (w : Word) : Laws.EncodeMatchesRow.Statement (.unknown w) :=
  Laws.encodeMatchesRow_of_filter (rows := []) rfl (by simp)

end Sys2Proof
end

