-- ==== Sys2Proof/Tests/Slice0.lean ====
section
/-! SUPPORT. The model's own tests. Expected results are those of 95_test_vectors.md (L1, L2) and of the examples in the
instructions' rules; the witnesses show that the hypotheses of the statements can be met. -/

namespace Sys2Proof.Tests

open Sys2Proof.Machine Sys2Proof.Machine.Claims

/-! ## Well-formed instructions: 30_encoding.md R89, R92, one check a group -/

theorem test_wf_refuses_group_1 : (Instr.unknown 0x1234).wf = false := by decide
theorem test_wf_refuses_group_0 : (Instr.unknown 0x012E).wf = false ∧ (Instr.unknown 0x0123).wf = true := by decide
theorem test_wf_refuses_group_8 : (Instr.unknown 0x8127).wf = false ∧ (Instr.unknown 0x8128).wf = true := by decide
theorem test_wf_refuses_group_E : (Instr.unknown 0xE19E).wf = false ∧ (Instr.unknown 0xE19F).wf = true := by decide
theorem test_wf_refuses_group_F : (Instr.unknown 0xF665).wf = false ∧ (Instr.unknown 0xF00A).wf = true := by decide

/-! ## Decoding: the words of 95_test_vectors.md L2-A and L2-B, and of the rules' examples -/

theorem test_decode_clear : decodeWord 0x00E0 = .clear ∧ decodeWord 0x0000 = .clear ∧ decodeWord 0x0AB0 = .clear := by
  decide
theorem test_decode_ret : decodeWord 0x00EE = .ret ∧ decodeWord 0x012E = .ret := by decide
theorem test_decode_jump : decodeWord 0x1501 = .jump 0x501 := by decide
theorem test_decode_call : decodeWord 0x2FFF = .call 0xFFF := by decide
theorem test_decode_skipEqImm : decodeWord 0x3A7F = .skipEqImm 0xA 0x7F := by decide
theorem test_decode_skipNeImm : decodeWord 0x4000 = .skipNeImm 0 0 := by decide
theorem test_decode_skipEqReg : decodeWord 0x5120 = .skipEqReg 1 2 ∧ decodeWord 0x5121 = .skipEqReg 1 2 := by decide
theorem test_decode_setImm : decodeWord 0x6314 = .setImm 3 0x14 := by decide
theorem test_decode_addImm : decodeWord 0x7305 = .addImm 3 5 := by decide
theorem test_decode_move : decodeWord 0x8AB0 = .move 0xA 0xB := by decide
theorem test_decode_or : decodeWord 0x8121 = .or 1 2 := by decide
theorem test_decode_and : decodeWord 0x8122 = .and 1 2 := by decide
theorem test_decode_xor : decodeWord 0x8123 = .xor 1 2 := by decide
theorem test_decode_addReg : decodeWord 0x8124 = .addReg 1 2 := by decide
theorem test_decode_subReg : decodeWord 0x8F15 = .subReg 0xF 1 := by decide
theorem test_decode_shiftRight : decodeWord 0x8126 = .shiftRight 1 ∧ decodeWord 0x81F6 = .shiftRight 1 := by decide
theorem test_decode_subnReg : decodeWord 0x8F17 = .subnReg 0xF 1 := by decide
theorem test_decode_shiftLeft : decodeWord 0x800E = .shiftLeft 0 := by decide
theorem test_decode_skipNeReg : decodeWord 0x9120 = .skipNeReg 1 2 ∧ decodeWord 0x912F = .skipNeReg 1 2 := by decide
theorem test_decode_setIndex : decodeWord 0xA300 = .setIndex 0x300 := by decide
theorem test_decode_jumpIndexed : decodeWord 0xBFC2 = .jumpIndexed 0xFC2 := by decide
theorem test_decode_random : decodeWord 0xC30F = .random 3 0x0F := by decide
theorem test_decode_draw : decodeWord 0xD120 = .draw 1 2 0 ∧ decodeWord 0xDFFF = .draw 0xF 0xF 0xF := by decide
theorem test_decode_skipIfKeyDown : decodeWord 0xE19E = .skipIfKeyDown 1 := by decide
theorem test_decode_skipIfKeyUp : decodeWord 0xE1A1 = .skipIfKeyUp 1 := by decide
theorem test_decode_getDelay : decodeWord 0xF007 = .getDelay 0 := by decide
theorem test_decode_setDelay : decodeWord 0xF115 = .setDelay 1 := by decide
theorem test_decode_addIndex : decodeWord 0xF21E = .addIndex 2 := by decide
theorem test_decode_loadFontAddr : decodeWord 0xF329 = .loadFontAddr 3 := by decide
theorem test_decode_storeBCD : decodeWord 0xF433 = .storeBCD 4 := by decide
theorem test_decode_dumpRegisters : decodeWord 0xF555 = .dumpRegisters 5 := by decide
theorem test_decode_loadRegisters : decodeWord 0xF665 = .loadRegisters 6 := by decide
theorem test_decode_unknown : [0x0123, 0x8128, 0x812F, 0xE19F, 0xF00A, 0xF018, 0xFFFF].map decodeWord =
    [.unknown 0x0123, .unknown 0x8128, .unknown 0x812F, .unknown 0xE19F, .unknown 0xF00A, .unknown 0xF018,
      .unknown 0xFFFF] := by decide

/-- 20_memory.md R61: the byte at the lower address is the high one. -/
theorem test_decode_bytes : (decode [0x63, 0x14, 0xAA]).toOption = some (.setImm 3 0x14, [0xAA]) := by decide
theorem test_decode_truncated : (decode [0x63]).toOption = none := by decide
theorem test_decode_table_word : decodeTableWord 16 0xD125 = some (.draw 1 2 5) := by decide

/-- 30_encoding.md R92: the canonical words, and R93's examples. -/
theorem test_encode : encode .clear = 0x00E0 ∧ encode .ret = 0x00EE ∧ encode (.jump 0x501) = 0x1501 ∧
    encode (.setImm 3 0x14) = 0x6314 ∧ encode (.draw 1 2 5) = 0xD125 ∧ encode (.shiftRight 4) = 0x8406 ∧
    encode (.loadRegisters 2) = 0xF265 ∧ encode (.unknown 0xF00A) = 0xF00A := by decide

/-- 60_exceptions.md R240, the code column. -/
theorem test_codes : [HaltReason.fetchOutOfBounds, .pcOutOfBounds, .stackOverflow, .stackUnderflow, .memoryFault 4096,
    .keyIndexFault 16].map HaltReason.code = [0, 1, 2, 3, 4, 5] := by decide

/-- 10_state.md R41, glyph A at 0x032. -/
theorem test_font : (List.range 5).map (fun j => State.reset.mem.read (0x032 + j)) = [0xF0, 0x90, 0xF0, 0x90, 0x90] := by
  decide

/-! ## One step on a small state -/

/-- All keys false. -/
def noKeys : Keys := Vector.replicate 16 false

/-- Key 5 held. -/
def key5 : Keys := noKeys.set 5 true

/-- The reset state with a word where the next step fetches. -/
def start (word : Nat) (pc : Word := 0x200) : State := State.withFetchWord { State.reset with pc := pc } 16 word

/-- Registers set first. -/
def regs (s : State) : List (RegIdx × Byte) → State
  | [] => s
  | (x, b) :: rest => regs (s.setReg x b) rest

/-- One step with `rand = 0xA7`, the draw of R184's example. -/
def run1 (s : State) (keys : Keys := noKeys) : Result := stepWith keys 0xA7 s

/-- What is seen of the next state; nothing if there is none. -/
def after {α : Type} (r : Result) (f : State → α) : Option α :=
  match r with
  | .next t => some (f t)
  | .fault _ => none
  | .refused _ => none

/-- `V1` and VF after an ALU word of L2-B, VF = 0xAA beforehand. -/
def alu (word : Nat) (v1 v2 : Byte) : Option (Byte × Byte) :=
  after (run1 (regs (start word) [(1, v1), (2, v2), (vf, 0xAA)])) fun t => (t.reg 1, t.reg vf)

/-- VF after an ALU word of L2-B whose destination is VF. -/
def aluVF (word : Nat) (v1 f : Byte) : Option Byte :=
  after (run1 (regs (start word) [(1, v1), (vf, f)])) fun t => t.reg vf

/-- `PC` and `run` after one step. -/
def pcRun (r : Result) : Option (Word × Run) := after r fun t => (t.pc, t.run)

theorem test_clear : after (run1 { start 0x00E0 with disp := Display.blank.xorPixel 3 4 true })
    (fun t => (t.disp.pixel 3 4, t.result.displayChanged, t.pc)) = some (false, true, 0x202) := by decide
theorem test_ret : after (run1 { start 0x00EE 0x300 with sp := 1, stack := State.reset.stack.set 0 0x206 })
    (fun t => (t.sp, t.pc)) = some (0, 0x206) := by decide
theorem test_ret_empty : pcRun (run1 (start 0x00EE)) = some (0x200, .halted .stackUnderflow) := by decide
theorem test_jump : pcRun (run1 (start 0x1501 0x4FF)) = some (0x501, .running) := by decide
theorem test_jump_last : pcRun (run1 (start 0x1FFF)) = some (0xFFF, .running) := by decide
theorem test_call : after (run1 (start 0x2200 0xFFE)) (fun t => (t.stack[0], t.sp, t.pc)) = some (0x1000, 1, 0x200) := by
  decide
theorem test_call_full : pcRun (run1 { start 0x2300 with sp := 16 }) = some (0x200, .halted .stackOverflow) := by decide
theorem test_skipEqImm : pcRun (run1 (regs (start 0x3319) [(3, 0x19)])) = some (0x204, .running) ∧
    pcRun (run1 (regs (start 0x3318) [(3, 0x19)])) = some (0x202, .running) := by decide
theorem test_skipEqImm_last : pcRun (run1 (start 0x3000 0xFFC)) = some (0x1000, .halted .pcOutOfBounds) := by decide
theorem test_skipNeImm : pcRun (run1 (regs (start 0x4319) [(3, 0x19)])) = some (0x202, .running) ∧
    pcRun (run1 (regs (start 0x4318) [(3, 0x19)])) = some (0x204, .running) := by decide
theorem test_skipEqReg : pcRun (run1 (regs (start 0x5127) [(1, 7), (2, 7)])) = some (0x204, .running) := by decide
theorem test_skipNeReg : pcRun (run1 (regs (start 0x9120) [(1, 7), (2, 8)])) = some (0x204, .running) ∧
    pcRun (run1 (regs (start 0x9120) [(1, 7), (2, 7)])) = some (0x202, .running) := by decide
theorem test_setImm : after (run1 (start 0x6314)) (fun t => (t.reg 3, t.pc)) = some (0x14, 0x202) := by decide
theorem test_addImm : alu 0x71FF 0x02 0 = some (0x01, 0xAA) := by decide
theorem test_addImm_vf : aluVF 0x7F01 0 0xFF = some 0x00 := by decide
theorem test_move : alu 0x8120 0x11 0xAB = some (0xAB, 0xAA) := by decide
theorem test_or : alu 0x8121 0xF0 0x0F = some (0xFF, 0xAA) := by decide
theorem test_and : alu 0x8122 0xF0 0x3C = some (0x30, 0xAA) := by decide
theorem test_xor : alu 0x8123 0xF0 0x3C = some (0xCC, 0xAA) ∧ alu 0x8113 0x90 0 = some (0, 0xAA) := by decide
theorem test_addReg : alu 0x8124 0xFF 0x01 = some (0, 1) ∧ alu 0x8124 0x7F 0x01 = some (0x80, 0) ∧
    alu 0x8114 0x90 0 = some (0x20, 1) := by decide
theorem test_addReg_vf : aluVF 0x8F14 0x01 0xFF = some 1 ∧
    after (run1 (regs (start 0x81F4) [(1, 0x10), (vf, 0x20)])) (fun t => (t.reg 1, t.reg vf)) = some (0x30, 0) := by
  decide
theorem test_subReg : alu 0x8125 5 3 = some (2, 1) ∧ alu 0x8125 5 5 = some (0, 0) ∧ alu 0x8125 0 1 = some (0xFF, 0) := by
  decide
theorem test_subReg_vf : aluVF 0x8F15 5 5 = some 0 ∧ aluVF 0x8F15 5 6 = some 1 := by decide
theorem test_shiftRight : alu 0x8126 0x81 0 = some (0x40, 1) ∧ alu 0x8126 0xFE 0 = some (0x7F, 0) := by decide
theorem test_shiftRight_vf : aluVF 0x8F06 0 2 = some 0 ∧ aluVF 0x8F06 0 3 = some 1 := by decide
theorem test_subnReg : alu 0x8127 3 5 = some (2, 1) ∧ alu 0x8127 5 5 = some (0, 0) ∧ alu 0x8127 0xFF 0 = some (1, 0) := by
  decide
theorem test_subnReg_vf : aluVF 0x8F17 5 3 = some 1 := by decide
theorem test_shiftLeft : alu 0x812E 0xFF 0 = some (0xFE, 1) ∧ alu 0x812E 0x7F 0 = some (0xFE, 0) := by decide
theorem test_shiftLeft_vf : aluVF 0x8F0E 0 0x80 = some 1 ∧ aluVF 0x8F0E 0 0x40 = some 0 := by decide
theorem test_setIndex : after (run1 (start 0xA300)) (fun t => t.i) = some 0x300 := by decide
theorem test_jumpIndexed : pcRun (run1 (regs (start 0xB300) [(0, 0x10)])) = some (0x310, .running) ∧
    pcRun (run1 (regs (start 0xBFC2) [(0, 0x3E)])) = some (0x1000, .halted .pcOutOfBounds) := by decide
theorem test_random : after (run1 (start 0xC30F)) (fun t => t.reg 3) = some 0x07 ∧
    after (run1 (start 0xC300)) (fun t => t.reg 3) = some 0 := by decide

/-- A sprite of one byte at 0x300, `I` there. -/
def sprite (word : Nat) (byte : Byte) : State := { (start word).storeBytes 0x300 [byte] with i := 0x300 }

theorem test_draw_wraps : after (run1 (regs (sprite 0xD121 0xFF) [(1, 63), (2, 31), (vf, 9)]))
    (fun t => (t.disp.pixel 63 31, t.disp.pixel 0 31, t.disp.pixel 6 31, t.disp.pixel 7 31, t.disp.pixel 0 0, t.reg vf)) =
      some (true, true, true, false, false, 0) := by decide
theorem test_draw_vf_collides : after (run1 (regs { sprite 0xDF01 0x80 with disp := Display.blank.xorPixel 10 0 true }
    [(vf, 10)])) (fun t => (t.disp.pixel 10 0, t.reg vf)) = some (false, 1) := by decide
theorem test_skipIfKeyDown : pcRun (run1 (regs (start 0xE09E) [(0, 5)]) key5) = some (0x204, .running) ∧
    pcRun (run1 (regs (start 0xE09E) [(0, 5)])) = some (0x202, .running) := by decide
theorem test_skipIfKeyDown_16 :
    pcRun (run1 (regs (start 0xE09E) [(0, 0x10)])) = some (0x200, .halted (.keyIndexFault 16)) := by decide
theorem test_skipIfKeyUp : pcRun (run1 (regs (start 0xE0A1) [(0, 5)])) = some (0x204, .running) ∧
    pcRun (run1 (regs (start 0xE0A1) [(0, 5)]) key5) = some (0x202, .running) := by decide
theorem test_getDelay : after (run1 { start 0xF307 with dt := 5 }) (fun t => (t.dt, t.reg 3)) = some (4, 4) := by decide
theorem test_getDelay_zero : after (run1 (start 0xF307)) (fun t => (t.dt, t.reg 3)) = some (0, 0) := by decide
theorem test_setDelay : after (run1 (regs (start 0xF015) [(0, 3)])) (fun t => t.dt) = some 3 := by decide
theorem test_addIndex : after (run1 (regs { start 0xF01E with i := 0xFFFF } [(0, 1)])) (fun t => t.i) = some 0 ∧
    after (run1 (regs { start 0xF01E with i := 0x0FFF } [(0, 1)])) (fun t => t.i) = some 0x1000 := by decide
theorem test_loadFontAddr : [0, 0xA, 0xF, 0x10, 0xFF].map (fun b => after (run1 (regs (start 0xF029) [(0, b)])) (fun t => t.i)) =
    [some 0x000, some 0x032, some 0x04B, some 0x050, some 0x4FB] := by decide
theorem test_storeBCD : after (run1 (regs { start 0xF033 with i := 0xFFD } [(0, 255)]))
    (fun t => (t.mem.read 0xFFD, t.mem.read 0xFFE, t.mem.read 0xFFF, t.run)) = some (2, 5, 5, .running) := by decide
theorem test_storeBCD_beyond : after (run1 (regs { start 0xF033 with i := 0xFFE } [(0, 255)]))
    (fun t => (t.mem.read 0xFFE, t.mem.read 0xFFF, t.run)) = some (0, 0, .halted (.memoryFault 0x1000)) := by decide
theorem test_dumpRegisters : after (run1 (regs { start 0xF255 with i := 0x300 } [(0, 1), (1, 2), (2, 3), (3, 4)]))
    (fun t => (t.mem.read 0x300, t.mem.read 0x301, t.mem.read 0x302, t.mem.read 0x303, t.i)) =
      some (1, 2, 3, 0, 0x300) := by decide
theorem test_dumpRegisters_beyond :
    pcRun (run1 { start 0xFF55 with i := 0xFF1 }) = some (0x200, .halted (.memoryFault 0x1000)) := by decide
theorem test_loadRegisters : after (run1 (regs { (start 0xF265).storeBytes 0x300 [0, 2, 4, 9] with i := 0x300 } [(3, 7)]))
    (fun t => (t.reg 0, t.reg 1, t.reg 2, t.reg 3, t.i)) = some (0, 2, 4, 7, 0x300) := by decide
theorem test_unknown : after (run1 (start 0xF00A 0xFFE)) (fun t => (t.pc, t.result.unknown, t.result.haltReason)) =
    some (0x1000, some 0xF00A, some .pcOutOfBounds) := by decide

/-- 40_step_cycle.md R122: a failed fetch takes no tick. -/
theorem test_fetch_fails : after (run1 { State.reset with pc := 0xFFF, dt := 5 } key5) (fun t => (t.run, t.dt, t.key)) =
    some (.halted .fetchOutOfBounds, 5, key5) := by decide

/-- 70_reset_and_hazards.md R264: the empty image, and one that is too long. -/
theorem test_load_too_long : load (List.replicate 3585 0) State.reset = .fault .loadError :=
  if_pos (by rw [List.length_replicate]; decide)

/-- A step of the host's interface runs, whatever the free values are. -/
theorem test_step_runs_from_reset : after (step (start 0x6314)) (fun t => (t.reg 3, t.steps)) = some (0x14, 1) := by decide

/-! ## Witnesses: states and operands that meet the hypotheses of the statements, clause by clause, at boundary values -/

/-- The reset state with bytes stored and `PC`, `I`, `SP` chosen. -/
def placed (a : Nat) (bytes : List Byte) (pc i : Word := 0x200) (sp : Fin 17 := 0) : State :=
  { State.reset.storeBytes a bytes with pc := pc, i := i, sp := sp }

theorem witness_DecodeOfEncodeIsTheInstruction : (Instr.unknown 0xF00A).wf = true ∧ (Instr.draw 15 15 15).wf = true := by
  decide
theorem witness_OpcodeMapSaysWhatIsDecoded_row : ∃ row ∈ opcodeMap, (0xF065 : Word) &&& row.mask = row.bits :=
  ⟨⟨"LoadRegisters", 0xF065, 0xF0FF⟩, by decide, by decide⟩
theorem witness_OpcodeMapSaysWhatIsDecoded_unknown : ∀ row ∈ opcodeMap, (0xF066 : Word) &&& row.mask ≠ row.bits := by
  simp [opcodeMap, opcodeMapGroups, opcodeMapNibbles, opcodeMapBytes]
theorem witness_UnknownWordsAreExactlyTheTable : decodeWord 0xFFFF = .unknown 0xFFFF := by decide
theorem witness_IgnoredBitsAreNotExamined : ((0x1 : Fin 16) ≠ 0x0 ∧ (0x1 : Fin 16) ≠ 0xE) ∧
    ((0xF : Fin 16) ≠ 0x0 ∧ (0xF : Fin 16) ≠ 0xE) := by decide
theorem witness_WithFetchWordIsFetchedNext : ∃ s : State, s.mem.wf ∧ s.pc.toNat = 0xFFE ∧
    (0xFFD ≠ s.pc.toNat ∧ 0xFFD ≠ s.pc.toNat + 1) ∧ 0x1000 ≠ s.pc.toNat ∧ 0x1000 ≠ s.pc.toNat + 1 :=
  ⟨placed 0 [] 0xFFE, by decide⟩
theorem witness_ConstructionGivesTheResetValues : ∃ (font : FontTable) (s : State), s = State.construct font ∧
    (80 ≤ 80 ∧ 80 < 4096) ∧ 80 ≤ 4095 ∧ 4095 < 4096 := ⟨Font.standard, _, rfl, by decide⟩
theorem witness_LoadCopiesTheImageOrRejectsIt : State.reset.mem.wf ∧
    (List.replicate 3584 (0 : Byte)).length ≤ 3584 ∧ 3583 < (List.replicate 3584 (0 : Byte)).length ∧
    3584 < (List.replicate 3585 (0 : Byte)).length := by
  simp only [List.length_replicate]; decide
theorem witness_StepRunsTheDecodedInstruction : ∃ s : State, s.run = .running ∧ s.pc.toNat = 0xFFE ∧
    decode [s.mem.read s.pc.toNat, s.mem.read (s.pc.toNat + 1)] = .ok (.setImm 3 0x14, []) :=
  ⟨start 0x6314 0xFFE, by decide, by decide, rfl⟩
theorem witness_StepTakesListedOrFreeArguments : ∃ s t : State, s.inputs = [⟨key5, 0xA7⟩] ∧ t.inputs = [] :=
  ⟨{ State.reset with inputs := [⟨key5, 0xA7⟩] }, State.reset, rfl, rfl⟩
theorem witness_FailedFetchHaltsTheCycle : ∃ s : State, s.run = .running ∧ 0xFFF ≤ s.pc.toNat ∧ s.pc.toNat = 0xFFF :=
  ⟨placed 0 [] 0xFFF, by decide⟩
theorem witness_StepOnHaltedMachineIsRefused : (State.reset.halt .stackOverflow).run = .halted .stackOverflow := rfl
theorem witness_RunningStepAlwaysAnswersNext : State.reset.run = .running := rfl
theorem witness_TimerTicksInEveryFetchedStep_fetch_fails : ∃ s t : State, s.run = .running ∧
    stepWith noKeys 0 s = .next t ∧ s.pc.toNat = 0xFFF := ⟨placed 0 [] 0xFFF, _, rfl, rfl, rfl⟩
theorem witness_TimerTicksInEveryFetchedStep_setDelay : ∃ s t : State, s.run = .running ∧
    stepWith noKeys 0 s = .next t ∧ s.pc.toNat = 0xFFE ∧ current s = .setDelay 0 :=
  ⟨start 0xF015 0xFFE, _, rfl, rfl, by decide, by decide⟩
theorem witness_TimerTicksInEveryFetchedStep_other : ∃ s t : State, s.run = .running ∧
    stepWith noKeys 0 s = .next t ∧ s.pc.toNat = 0xFFE ∧ ∀ x, current s ≠ .setDelay x :=
  ⟨start 0x00EE 0xFFE, _, rfl, rfl, by decide, by decide⟩
theorem witness_KeyLatchIsTheStepArgument : (∃ t, stepWith key5 0 State.reset = .next t) ∧
    ∃ t, exec (.setImm 3 0x14) State.reset = .next t := ⟨⟨_, rfl⟩, _, rfl⟩

/-- The premises of PcAdvancesByTheOutcome, at the highest `PC` a handler runs at. -/
def advances (i : Instr) (s : State) : Prop :=
  s.run = .running ∧ s.pc.toNat = 0xFFE ∧ after (exec i s) State.endedFatally = some false

theorem witness_PcAdvancesByTheOutcome_plain : advances .clear (placed 0 [] 0xFFE) := by
  unfold advances; decide
theorem witness_PcAdvancesByTheOutcome_skips : advances (.skipEqImm 0 0) (placed 0 [] 0xFFE) ∧
    advances (.skipEqImm 0 1) (placed 0 [] 0xFFE) ∧ advances (.skipIfKeyUp 0) (placed 0 [] 0xFFE) := by
  unfold advances; decide
theorem witness_PcAdvancesByTheOutcome_jumps : advances (.jump 0xFFF) (placed 0 [] 0xFFE) ∧
    advances (.call 0xFFF) (placed 0 [] 0xFFE 0 15) ∧ advances .ret (placed 0 [] 0xFFE 0 16) ∧
    advances (.jumpIndexed 0xFFF) ((placed 0 [] 0xFFE).setReg 0 0xFF) := by
  unfold advances; decide
theorem witness_PostAdvanceCheckHaltsOutsideMemory : ∃ s t u : State, s.run = .running ∧
    (exec .clear s = .next t ∧ t.endedFatally = false ∧ t.pc.toNat = 4096) ∧
    exec (.jump 0xFFF) s = .next u ∧ u.endedFatally = false ∧ u.pc.toNat = 4095 :=
  ⟨placed 0 [] 0xFFE, _, _, rfl, ⟨rfl, by decide, by decide⟩, rfl, by decide, by decide⟩
theorem witness_StepResultReportsTheStep : ∃ s t : State, s.run = .running ∧ stepWith noKeys 0 s = .next t ∧
    s.pc.toNat = 0xFFE ∧ t.endedFatally = false ∧ current s = .clear := ⟨placed 0 [] 0xFFE, _, rfl, rfl, by decide⟩
theorem witness_FatalErrorLeavesTheHandlersStateAlone : ∃ s t : State, s.run = .running ∧
    stepWith noKeys 0 s = .next t ∧ t.endedFatally = true := ⟨start 0x00EE, _, rfl, rfl, by decide⟩

/-- `run` after one step. -/
def runOf (s : State) : Option Run := after (run1 s) State.run

theorem witness_EveryHaltHasItsOneCause_fetch : runOf (placed 0 [] 0xFFF) = some (.halted .fetchOutOfBounds) ∧
    runOf (placed 0 [] 0xFFE) = some (.halted .pcOutOfBounds) ∧ runOf (placed 0 [] 0xFFC) = some .running := by decide
theorem witness_EveryHaltHasItsOneCause_stack : runOf (placed 0x200 [0x22, 0] 0x200 0 16) = some (.halted .stackOverflow) ∧
    runOf (placed 0x200 [0x22, 0] 0x200 0 15) = some .running ∧
    runOf (placed 0x200 [0, 0xEE]) = some (.halted .stackUnderflow) ∧
    runOf (placed 0x200 [0, 0xEE] 0x200 0 16) = some .running := by decide
theorem witness_EveryHaltHasItsOneCause_memory : runOf (placed 0x200 [0xF0, 0x33] 0x200 0xFFD) = some .running ∧
    runOf (placed 0x200 [0xF0, 0x33] 0x200 0xFFE) = some (.halted (.memoryFault 0x1000)) ∧
    runOf (placed 0x200 [0xF0, 0x33] 0x200 0xFFFF) = some (.halted (.memoryFault 0xFFFF)) ∧
    runOf (placed 0x200 [0xD0, 0x00] 0x200 0xFFFF) = some .running := by decide
theorem witness_EveryHaltHasItsOneCause_key : runOf ((placed 0x200 [0xE0, 0x9E]).setReg 0 15) = some .running ∧
    runOf ((placed 0x200 [0xE0, 0x9E]).setReg 0 16) = some (.halted (.keyIndexFault 16)) := by decide
theorem witness_OnlyCallAndReturnTouchTheStack : (∃ t, exec .clear State.reset = .next t) ∧
    (∀ addr, Instr.clear ≠ .call addr) ∧ Instr.clear ≠ .ret := ⟨⟨_, rfl⟩, by simp, by simp⟩
theorem witness_OnlyThreeInstructionsWriteTheIndex : (∃ t, exec (.dumpRegisters 15) State.reset = .next t) ∧
    (∀ addr, Instr.dumpRegisters 15 ≠ .setIndex addr) ∧ (∀ x, Instr.dumpRegisters 15 ≠ .addIndex x) ∧
    ∀ x, Instr.dumpRegisters 15 ≠ .loadFontAddr x := ⟨⟨_, rfl⟩, by simp, by simp, by simp⟩
theorem witness_OnlyClearAndDrawChangeTheDisplay : (∃ t, stepWith noKeys 0 (start 0x6314) = .next t) ∧
    current (start 0x6314) = .setImm 3 0x14 := ⟨⟨_, rfl⟩, by decide⟩
theorem witness_OnlyStoresWriteMemory : (∃ t, exec (.storeBCD 0) (placed 0 [] 0x200 0x300) = .next t) ∧
    (0x2FF < 0x300 ∨ 0x300 + storeCount (.storeBCD 0) ≤ 0x2FF) ∧ 0x300 + storeCount (.storeBCD 0) ≤ 0x303 :=
  ⟨⟨_, rfl⟩, by decide, by decide⟩
theorem witness_RegistersAreWrittenByTheTable : (∃ t, exec (.addReg 1 2) State.reset = .next t) ∧
    ¬ mayWrite (.addReg 1 2) 2 ∧ ¬ mayWrite (.loadRegisters 3) 4 := ⟨⟨_, rfl⟩, by simp [mayWrite, vf], by simp [mayWrite]⟩
theorem witness_InvariantHoldsAfterResetAndLoad : ∃ s, load [0x60, 0x01] (State.construct Font.standard) = .next s :=
  ⟨_, rfl⟩
theorem witness_EveryStepKeepsTheInvariant : (placed 0x200 [0x22, 0] 0xFFF 0x300 3).Inv ∧
    ∃ t, step (placed 0x200 [0x22, 0] 0xFFF 0x300 3) = .next t :=
  ⟨⟨by decide, by simp [State.runTruthful, placed, Config.memSize, State.reset, State.construct, State.storeBytes],
    by decide, by decide⟩, _, rfl⟩
theorem witness_EveryReachedStateIsSound : ∃ s t : State, load [0x60, 0x01] (State.construct Font.standard) = .next s ∧
    SafeRun s t ∧ t.run = .running :=
  ⟨_, _, rfl, ⟨.step noKeys 0 .here rfl, by decide⟩, by decide⟩
theorem witness_ReadAfterWriteGivesTheByte : State.reset.mem.wf ∧ 0xFFF < 4096 ∧ 0xFFE ≠ 0xFFF := by decide
theorem witness_EqualMemoriesAreEqualData : ∃ m m' : Memory, m.wf ∧ m'.wf ∧ m.font = m'.font ∧
    ∀ a, a < 4096 → m.read a = m'.read a :=
  ⟨(State.reset.mem.write 0x300 5).write 0x300 0, State.reset.mem, by decide, by decide, rfl, fun _ _ => rfl⟩
theorem witness_StoredBytesAreFetchedNext : ∃ s : State, s.mem.wf ∧ s.pc.toNat = 0xFFC ∧ s.i = s.pc + 2 :=
  ⟨placed 0 [] 0xFFC 0xFFE, by decide⟩
theorem witness_AddRegGivesSumAndCarry : (14 : RegIdx) ≠ vf := by decide
theorem witness_SubtractionsGiveDifferenceAndStrictFlag : (14 : RegIdx) ≠ vf := by decide
theorem witness_ShiftsGiveValueAndShiftedOutBit : (14 : RegIdx) ≠ vf := by decide
theorem witness_ArithmeticLawsHold : (14 : RegIdx) ≠ vf ∧ (∃ t, exec (.shiftRight 14) State.reset = .next t) ∧
    (∃ t, exec (.shiftLeft 14) State.reset = .next t) ∧ (∃ t, exec (.addReg 14 15) State.reset = .next t) ∧
    ((∃ t, exec (.subReg 14 15) State.reset = .next t) ∧ State.reset.reg 14 = State.reset.reg 15) ∧
    ∃ t, exec (.addImm 14 0xFF) State.reset = .next t :=
  ⟨by decide, ⟨_, rfl⟩, ⟨_, rfl⟩, ⟨_, rfl⟩, ⟨⟨_, rfl⟩, rfl⟩, _, rfl⟩
theorem witness_RandomMasksTheFreeByte : ∃ s : State, s.run = .running ∧ s.pc.toNat = 0xFFE ∧ current s = .random 3 0x0F :=
  ⟨start 0xC30F 0xFFE, by decide⟩
theorem witness_DelayInstructionsMoveTheTimer : ∃ s t : State, (s.run = .running ∧ s.pc.toNat = 0xFFE ∧
    current s = .getDelay 3) ∧ t.run = .running ∧ t.pc.toNat = 0xFFE ∧ current t = .setDelay 0 :=
  ⟨start 0xF307 0xFFE, start 0xF015 0xFFE, by decide⟩
theorem witness_GetDelayAfterSetDelayReadsOneLess : ∃ s : State, s.run = .running ∧ s.pc.toNat = 0xFFC ∧
    wordAt s.mem s.pc.toNat = wordXK 0xF 0 0x15 ∧ wordAt s.mem (s.pc.toNat + 2) = wordXK 0xF 1 0x07 :=
  ⟨placed 0xFFC [0xF0, 0x15, 0xF1, 0x07] 0xFFC, by decide⟩
theorem witness_StoreBCDWritesThreeDigits : ∃ s : State, s.mem.wf ∧ s.i.toNat + 2 < 4096 ∧ s.i.toNat = 0xFFD :=
  ⟨placed 0 [] 0x200 0xFFD, by decide⟩
theorem witness_DumpRegistersStoresTheRegisters : ∃ s : State, s.mem.wf ∧ s.i.toNat + (15 : RegIdx).val < 4096 ∧
    s.i.toNat = 0xFF0 := ⟨placed 0 [] 0x200 0xFF0, by decide⟩
theorem witness_LoadRegistersLoadsTheRegisters : ∃ s : State, s.i.toNat + (15 : RegIdx).val < 4096 ∧ s.i.toNat = 0xFF0 :=
  ⟨placed 0 [] 0x200 0xFF0, by decide⟩
theorem witness_OutOfRangeAccessIsAMemoryFault : ∃ s : State, 0 < accessCount (.storeBCD 0) ∧
    4096 < s.i.toNat + accessCount (.storeBCD 0) ∧ 0 < accessCount (.draw 0 0 15) ∧
    4096 < s.i.toNat + accessCount (.draw 0 0 15) ∧ s.i.toNat = 0xFFE := ⟨placed 0 [] 0x200 0xFFE, by decide⟩
theorem witness_DrawXorsTheSpriteAndFlagsCollision : ∃ s t : State, ((0 : Fin 16).val = 0 ∧ s.i = 0xFFFF) ∧
    t.i.toNat + (15 : Fin 16).val ≤ 4096 ∧ t.i.toNat = 0xFF1 :=
  ⟨placed 0 [] 0x200 0xFFFF, placed 0 [] 0x200 0xFF1, by decide⟩
theorem witness_DrawingTwiceErases : ∃ s t : State, (1 : RegIdx) ≠ vf ∧ (2 : RegIdx) ≠ vf ∧
    s.i.toNat + (1 : Fin 16).val ≤ 4096 ∧ s.disp = Display.blank ∧ exec (.draw 1 2 1) s = .next t ∧
    t.disp ≠ Display.blank :=
  ⟨sprite 0xD121 0xFF, _, by decide, by decide, by decide, rfl, rfl,
    fun h => absurd (congrArg (fun d => d.pixel 0 0) h) (by decide)⟩
theorem witness_CallPushesTheReturnAddress : ∃ s : State, s.sp.val < 16 ∧ (15 : Fin 16).val = s.sp.val ∧
    (14 : Fin 16).val ≠ s.sp.val := ⟨placed 0 [] 0x200 0 15, by decide⟩
theorem witness_ReturnPopsThePc : ∃ s t : State, (0 < s.sp.val ∧ (0 : Fin 16).val + 1 = s.sp.val) ∧
    0 < t.sp.val ∧ (15 : Fin 16).val + 1 = t.sp.val := ⟨placed 0 [] 0x200 0 1, placed 0 [] 0x200 0 16, by decide⟩
theorem witness_StackErrorsHalt : ∃ s t : State, s.sp.val = 16 ∧ t.sp.val = 0 := ⟨placed 0 [] 0x200 0 16, State.reset, by decide⟩
theorem witness_CallThenReturnComesBack : ∃ s : State, s.run = .running ∧ s.pc.toNat = 0xFFC ∧ s.sp.val = 15 ∧
    (0xFFE : Addr).toNat ≤ 0xFFE ∧ wordAt s.mem s.pc.toNat = wordA 0x2 0xFFE ∧
    wordAt s.mem (0xFFE : Addr).toNat = 0x00EE := ⟨placed 0xFFC [0x2F, 0xFE, 0x00, 0xEE] 0xFFC 0 15, by decide⟩
theorem witness_KeySkipsTestTheLatch : ∃ s : State, (s.reg 0).toNat = (15 : Fin 16).val :=
  ⟨(placed 0 []).setReg 0 15, by decide⟩
theorem witness_KeyIndexOutOfRangeHalts : ∃ s : State, 16 ≤ (s.reg 0).toNat ∧ (s.reg 0).toNat = 16 :=
  ⟨(placed 0 []).setReg 0 16, by decide⟩
theorem witness_ArgumentsAreReadByTheirInstructionsAlone : ∃ s t : State, stepWith noKeys 0 s = .next t ∧
    current s = .setImm 3 0x14 := ⟨start 0x6314, _, rfl, by decide⟩

end Sys2Proof.Tests
end

/-! ## What every handler does, in three answers

`exec` is one match of 33 arms. Here it is brought once into one shape (`exec_eq`): the fatal error, if any; else the
outcome handed to `finish`, and the state with the handler's writes. The frames, the invariant and the independence of
the step's arguments are then read off these answers. -/

namespace Sys2Proof.Machine

open Claims

/-- The fatal error that the instruction raises here (60_exceptions.md R243 to R246). An instruction that accesses no
memory has nothing out of range. -/
def fatalError (i : Instr) (s : State) : Option HaltReason :=
  match i with
  | .call _ => if s.sp.val = 16 then some .stackOverflow else none
  | .ret => if s.sp.val = 0 then some .stackUnderflow else none
  | .skipIfKeyDown x | .skipIfKeyUp x => if 16 ≤ (s.reg x).toNat then some (.keyIndexFault (s.reg x)) else none
  | i => (outOfRange s.i.toNat (accessCount i)).map .memoryFault

/-- The outcome the instruction hands to phase 5 when it raises no error (40_step_cycle.md R126). -/
def outcome (i : Instr) (s : State) : Control :=
  match i with
  | .jump addr => .jumpTo (zext16 addr)
  | .jumpIndexed addr => .jumpTo (BitVec.ofNat 16 ((s.reg 0).toNat + addr.toNat))
  | .call addr => .callTo (zext16 addr)
  | .ret => .returnTo s.stack[s.sp.val - 1]
  | .skipEqImm x kk => skipIf (s.reg x == kk)
  | .skipNeImm x kk => skipIf (s.reg x != kk)
  | .skipEqReg x y => skipIf (s.reg x == s.reg y)
  | .skipNeReg x y => skipIf (s.reg x != s.reg y)
  | .skipIfKeyDown x => skipIf (s.key[(s.reg x).toNat]?.getD false)
  | .skipIfKeyUp x => skipIf (!s.key[(s.reg x).toNat]?.getD false)
  | _ => .cont

/-- The state with the handler's own writes, before phase 5, when it raises no error. (A Call on a full stack raises
one; `min` keeps the `SP` of that case in its type.) -/
def writes (i : Instr) (s : State) : State :=
  match i with
  | .clear => { s with disp := Display.blank, displayChanged := true }
  | .draw x y n => s.drawAt (s.reg x) (s.reg y) n.val
  | .call _ =>
    { s with stack := s.stack.setIfInBounds s.sp.val (s.pc + 2), sp := ⟨min (s.sp.val + 1) 16, by omega⟩ }
  | .ret => { s with sp := ⟨s.sp.val - 1, by omega⟩ }
  | .setImm x kk => s.setReg x kk
  | .addImm x kk => s.setReg x (trunc8 ((s.reg x).toNat + kk.toNat))
  | .move x y => s.setReg x (s.reg y)
  | .or x y => s.setReg x (s.reg x ||| s.reg y)
  | .and x y => s.setReg x (s.reg x &&& s.reg y)
  | .xor x y => s.setReg x (s.reg x ^^^ s.reg y)
  | .random x kk => s.setReg x (s.rand &&& kk)
  | .getDelay x => s.setReg x s.dt
  | .addReg x y => s.setRegFlag x (trunc8 ((s.reg x).toNat + (s.reg y).toNat)) (carryFlag (s.reg x) (s.reg y))
  | .subReg x y =>
    s.setRegFlag x (trunc8Int (((s.reg x).toNat : Int) - ((s.reg y).toNat : Int))) (greaterFlag (s.reg x) (s.reg y))
  | .subnReg x y =>
    s.setRegFlag x (trunc8Int (((s.reg y).toNat : Int) - ((s.reg x).toNat : Int))) (greaterFlag (s.reg y) (s.reg x))
  | .shiftRight x => s.setRegFlag x (s.reg x >>> 1) (lowBitFlag (s.reg x))
  | .shiftLeft x => s.setRegFlag x (s.reg x <<< 1) (highBitFlag (s.reg x))
  | .setIndex addr => { s with i := zext16 addr }
  | .addIndex x => { s with i := BitVec.ofNat 16 (s.i.toNat + (s.reg x).toNat) }
  | .loadFontAddr x => { s with i := BitVec.ofNat 16 ((s.reg x).toNat * 5) }
  | .setDelay x => { s with dt := s.reg x }
  | .storeBCD x => s.storeBytes s.i.toNat (bcdDigits (s.reg x))
  | .dumpRegisters x => s.storeBytes s.i.toNat (s.firstRegs (x.val + 1))
  | .loadRegisters x => s.loadRegs s.i.toNat (x.val + 1)
  | .unknown w => { s with unknown := some w }
  | .jump _ | .jumpIndexed _ | .skipEqImm _ _ | .skipNeImm _ _ | .skipEqReg _ _ | .skipNeReg _ _ | .skipIfKeyDown _
  | .skipIfKeyUp _ => s

/-- The one shape of every handler's end. -/
def answer (error : Option HaltReason) (c : Control) (u s : State) : Result :=
  match error with
  | some r => raise r s
  | none => finish c u

/-- A range-checked handler has that shape. -/
theorem checked_eq_answer (o : Option Nat) (c : Control) (u s : State) :
    (match o with | some a => raise (.memoryFault a) s | none => finish c u) =
      answer (o.map .memoryFault) c u s := by
  cases o <;> rfl

/-- A key skip has that shape: a key that is not there is an index of 16 or more. -/
theorem keySkip_eq_answer (s : State) (b : Byte) (f : Bool → Bool) :
    (match s.keyAt b with | none => raise (.keyIndexFault b) s | some held => finish (skipIf (f held)) s) =
      answer (if 16 ≤ b.toNat then some (.keyIndexFault b) else none) (skipIf (f (s.key[b.toNat]?.getD false)))
        s s := by
  unfold State.keyAt
  by_cases h : 16 ≤ b.toNat
  · simp [h, answer]
  · simp [h, answer, Vector.getElem?_eq_getElem (Nat.not_le.mp h)]

/-- With room on the stack a Call's writes are its push. -/
theorem push_eq_writes_call (addr : Addr) {s : State} (h : s.sp.val < 16) :
    s.push (s.pc + 2) = some (writes (.call addr) s) := by
  have hsp : min (s.sp.val + 1) 16 = s.sp.val + 1 := by omega
  have hset : s.stack.setIfInBounds s.sp.val (s.pc + 2) = s.stack.set s.sp.val (s.pc + 2) :=
    Vector.ext fun j hj => by rw [Vector.getElem_setIfInBounds, Vector.getElem_set]
  simp only [s.push_of_lt _ h, writes, hsp, hset]

/-- Every handler raises its fatal error, or else ends in `finish` with its outcome and its writes. -/
theorem exec_eq (i : Instr) (s : State) : exec i s = answer (fatalError i s) (outcome i s) (writes i s) s := by
  cases i with
  | call addr =>
    by_cases h : s.sp.val = 16
    · simp [exec, execCall, fatalError, answer, h, s.push_of_full _ h]
    · have h' : s.sp.val < 16 := by omega
      simp only [exec, execCall, push_eq_writes_call addr h', fatalError, if_neg h, answer, outcome]
  | ret =>
    by_cases h : s.sp.val = 0
    · simp [exec, execRet, fatalError, answer, h, s.pop_of_empty h]
    · have h' : 0 < s.sp.val := by omega
      simp [exec, execRet, fatalError, answer, outcome, writes, h, s.pop_of_pos h']
  | skipIfKeyDown x => exact keySkip_eq_answer s (s.reg x) id
  | skipIfKeyUp x => exact keySkip_eq_answer s (s.reg x) (!·)
  | draw x y n => exact checked_eq_answer _ _ _ _
  | storeBCD x => exact checked_eq_answer _ _ _ _
  | dumpRegisters x => exact checked_eq_answer _ _ _ _
  | loadRegisters x => exact checked_eq_answer _ _ _ _
  | _ => rfl

/-- What a handler's next state is. -/
theorem exec_cases {i : Instr} {s t : State} (h : exec i s = .next t) :
    (∃ r, fatalError i s = some r ∧ t = s.halt r) ∨
    (fatalError i s = none ∧ t = ((writes i s).advance (outcome i s)).checkPc) := by
  rw [exec_eq] at h
  cases he : fatalError i s with
  | some r => rw [he] at h; cases h; exact .inl ⟨r, rfl, rfl⟩
  | none => rw [he] at h; cases h; exact .inr ⟨rfl, rfl⟩

/-- A reading of the state that sees neither `PC` nor `run`, and that the handler's writes keep, is kept by the
handler: its end and a fatal error write nothing else. -/
theorem exec_keeps {α : Type} (f : State → α) (hf : ∀ s pc run, f { s with pc := pc, run := run } = f s) {i : Instr}
    {s t : State} (h : exec i s = .next t) (hw : f (writes i s) = f s) : f t = f s := by
  obtain ⟨r, -, rfl⟩ | ⟨-, rfl⟩ := exec_cases h
  · exact hf s s.pc _
  · exact (hf (writes i s) _ _).trans hw

/-! ### The writes, field by field -/

theorem State.loadRegs_eq (s : State) (base n : Nat) : ∃ v, s.loadRegs base n = { s with v := v } :=
  ⟨_, congrArg (fun u : State => { u with v := (s.loadRegs base n).v }) (s.loadRegs_fields base n)⟩

theorem writes_sp {i : Instr} (s : State) (hcall : ∀ addr, i ≠ .call addr) (hret : i ≠ .ret) :
    (writes i s).sp = s.sp := by
  cases i with
  | call addr => exact absurd rfl (hcall addr)
  | ret => exact absurd rfl hret
  | loadRegisters x => obtain ⟨v, h⟩ := s.loadRegs_eq s.i.toNat (x.val + 1); rw [writes, h]
  | _ => rfl

theorem writes_stack {i : Instr} (s : State) (hcall : ∀ addr, i ≠ .call addr) : (writes i s).stack = s.stack := by
  cases i with
  | call addr => exact absurd rfl (hcall addr)
  | loadRegisters x => obtain ⟨v, h⟩ := s.loadRegs_eq s.i.toNat (x.val + 1); rw [writes, h]
  | _ => rfl

theorem writes_i {i : Instr} (s : State) (hset : ∀ addr, i ≠ .setIndex addr) (hadd : ∀ x, i ≠ .addIndex x)
    (hfont : ∀ x, i ≠ .loadFontAddr x) : (writes i s).i = s.i := by
  cases i with
  | setIndex addr => exact absurd rfl (hset addr)
  | addIndex x => exact absurd rfl (hadd x)
  | loadFontAddr x => exact absurd rfl (hfont x)
  | loadRegisters x => obtain ⟨v, h⟩ := s.loadRegs_eq s.i.toNat (x.val + 1); rw [writes, h]
  | _ => rfl

theorem writes_disp {i : Instr} (s : State) (hclear : i ≠ .clear) (hdraw : ∀ x y n, i ≠ .draw x y n) :
    (writes i s).disp = s.disp := by
  cases i with
  | clear => exact absurd rfl hclear
  | draw x y n => exact absurd rfl (hdraw x y n)
  | loadRegisters x => obtain ⟨v, h⟩ := s.loadRegs_eq s.i.toNat (x.val + 1); rw [writes, h]
  | _ => rfl

/-- The registers written are those of the table of 10_state.md R24: one destination, destination and VF, VF alone
(Draw), or all up to `V[x]` (LoadRegisters). -/
theorem writes_reg {i : Instr} (s : State) {r : RegIdx} (hr : ¬ mayWrite i r) : (writes i s).reg r = s.reg r := by
  cases i with
  | setImm | addImm | move | or | and | xor | random | getDelay => exact s.reg_setReg_of_ne hr _
  | addReg | subReg | subnReg | shiftRight | shiftLeft =>
    obtain ⟨hx, hvf⟩ := not_or.mp hr
    exact s.reg_setRegFlag_of_ne hx hvf _ _
  | draw x y n => exact s.reg_drawAt_of_ne hr _ _ _
  | loadRegisters x =>
    have hlt : ¬ r.val < x.val + 1 := fun h => hr (Fin.le_def.mpr (Nat.le_of_lt_succ h))
    exact (s.loadRegs_reg _ (by omega) r).trans (if_neg hlt)
  | _ => rfl

/-- The writes leave to `finish` and `raise` what is theirs, and keep memory canonical. -/
theorem handlerKeeps_writes (i : Instr) (s : State) : HandlerKeeps s (writes i s) := by
  cases i with
  | storeBCD x => exact handlerKeeps_storeBytes s _ _
  | dumpRegisters x => exact handlerKeeps_storeBytes s _ _
  | loadRegisters x => exact handlerKeeps_of_v (s.loadRegs_fields _ _)
  | _ => exact ⟨rfl, rfl, rfl, rfl, rfl, rfl, rfl, id⟩

/-! ### The step -/

/-- The word fetched, in the two spellings. -/
theorem wordOfBytes_read (m : Memory) (a : Nat) : wordOfBytes (m.read a) (m.read (a + 1)) = wordAt m a := by
  rw [wordAt, ← wordOfBytes_toNat, BitVec.ofNat_toNat, BitVec.setWidth_eq]

/-- A step whose fetch succeeds runs the handler of the word at `PC`. -/
theorem stepWith_of_fetched (keys : Keys) (rand : Byte) {s : State} (hrun : s.run = .running)
    (hpc : s.pc.toNat ≤ 0xFFE) : stepWith keys rand s = exec (current s) (atHandler keys rand s) := by
  obtain ⟨r, hr, -⟩ | ⟨-, hgt, -⟩ | ⟨-, -, h⟩ := stepWith_cases keys rand s
  · rw [hrun] at hr; cases hr
  · omega
  · rw [h, wordOfBytes_read]; rfl

/-- A step whose fetch fails halts and latches the arguments. -/
theorem stepWith_of_fetch_fails (keys : Keys) (rand : Byte) {s : State} (hrun : s.run = .running)
    (hpc : 0xFFF ≤ s.pc.toNat) : stepWith keys rand s = .next ((s.latch keys rand).halt .fetchOutOfBounds) := by
  obtain ⟨r, hr, -⟩ | ⟨-, -, h⟩ | ⟨-, hle, -⟩ := stepWith_cases keys rand s
  · rw [hrun] at hr; cases hr
  · exact h
  · omega

/-- A step that answers was taken on a Running machine, and failed to fetch or ran the handler. -/
theorem stepWith_next_cases {keys : Keys} {rand : Byte} {s t : State} (h : stepWith keys rand s = .next t) :
    s.run = .running ∧
    ((0xFFF ≤ s.pc.toNat ∧ t = (s.latch keys rand).halt .fetchOutOfBounds) ∨
      (s.pc.toNat ≤ 0xFFE ∧ exec (current s) (atHandler keys rand s) = .next t)) := by
  obtain ⟨r, -, hs⟩ | ⟨hrun, hpc, hs⟩ | ⟨hrun, hpc, -⟩ := stepWith_cases keys rand s
  · rw [hs] at h; cases h
  · rw [hs] at h; cases h; exact ⟨hrun, .inl ⟨hpc, rfl⟩⟩
  · exact ⟨hrun, .inr ⟨hpc, stepWith_of_fetched keys rand hrun hpc ▸ h⟩⟩

/-! ## The frames of 10_state.md -/

/-- Settles O22: the handler's writes keep `SP` and the stack, and the end of a handler writes neither. -/
theorem onlyCallAndReturnTouchTheStack : Obligations.OnlyCallAndReturnTouchTheStack :=
  fun _ s _ h hcall hret =>
    ⟨exec_keeps State.sp (fun _ _ _ => rfl) h (writes_sp s hcall hret),
      exec_keeps State.stack (fun _ _ _ => rfl) h (writes_stack s hcall)⟩

/-- Settles O23, by the writes of `I`; the end of a handler writes `PC` and `run` alone. -/
theorem onlyThreeInstructionsWriteTheIndex : Obligations.OnlyThreeInstructionsWriteTheIndex :=
  fun _ s _ h hset hadd hfont => exec_keeps State.i (fun _ _ _ => rfl) h (writes_i s hset hadd hfont)

/-- Settles O24: neither the phases before the handler nor a failed fetch touch the display. -/
theorem onlyClearAndDrawChangeTheDisplay : Obligations.OnlyClearAndDrawChangeTheDisplay := by
  intro keys rand s t h hclear hdraw
  obtain ⟨-, ⟨-, rfl⟩ | ⟨-, hexec⟩⟩ := stepWith_next_cases h
  · rfl
  · exact (exec_keeps State.disp (fun _ _ _ => rfl) hexec (writes_disp _ hclear hdraw) :)

/-- Settles O26: register by register, through the table of the writes. -/
theorem registersAreWrittenByTheTable : Obligations.RegistersAreWrittenByTheTable :=
  fun _ s _ h r hr => exec_keeps (fun s => s.reg r) (fun _ _ _ => rfl) h (writes_reg s hr)

/-! ## Independence of the step's arguments -/

/-- The state with other arguments of the step latched. -/
def State.withArgs (keys : Keys) (rand : Byte) (s : State) : State := { s with key := keys, rand := rand }

/-- No fatal error rests on the arguments: a key skip looks at the key's number before it looks at the key. -/
theorem fatalError_withArgs (i : Instr) (keys : Keys) (rand : Byte) (s : State) :
    fatalError i (s.withArgs keys rand) = fatalError i s := by
  cases i <;> rfl

/-- Only the outcomes of the key skips rest on the keys. -/
theorem outcome_withArgs {i : Instr} {keys : Keys} {s : State} (hdown : ∀ x, i = .skipIfKeyDown x → keys = s.key)
    (hup : ∀ x, i = .skipIfKeyUp x → keys = s.key) (rand : Byte) :
    outcome i (s.withArgs keys rand) = outcome i s := by
  cases i with
  | skipIfKeyDown x => rw [hdown x rfl]; rfl
  | skipIfKeyUp x => rw [hup x rfl]; rfl
  | _ => rfl

/-- Only the writes of Random rest on the free byte. -/
theorem writes_withArgs {i : Instr} {rand : Byte} {s : State} (hrandom : ∀ x kk, i = .random x kk → rand = s.rand)
    (keys : Keys) : writes i (s.withArgs keys rand) = (writes i s).withArgs keys rand := by
  cases i with
  | random x kk => rw [hrandom x kk rfl]; rfl
  | loadRegisters x => exact List.foldl_hom (State.withArgs keys rand) fun _ _ => rfl
  | _ => rfl

/-- A handler that does not read what differs ends alike. -/
theorem exec_withArgs {i : Instr} {keys : Keys} {rand : Byte} {s t : State}
    (hrandom : ∀ x kk, i = .random x kk → rand = s.rand) (hdown : ∀ x, i = .skipIfKeyDown x → keys = s.key)
    (hup : ∀ x, i = .skipIfKeyUp x → keys = s.key) (h : exec i s = .next t) :
    exec i (s.withArgs keys rand) = .next (t.withArgs keys rand) := by
  rw [exec_eq, fatalError_withArgs, outcome_withArgs hdown hup, writes_withArgs hrandom]
  obtain ⟨r, he, rfl⟩ | ⟨he, rfl⟩ := exec_cases h
  · rw [he]; rfl
  · rw [he]; rfl

/-- Two steps from one state end alike, but for the latched arguments, when the instruction reads none that differs. -/
theorem stepWith_withArgs {keys keys' : Keys} {rand rand' : Byte} {s t : State}
    (hrandom : ∀ x kk, current s = .random x kk → rand' = rand)
    (hdown : ∀ x, current s = .skipIfKeyDown x → keys' = keys)
    (hup : ∀ x, current s = .skipIfKeyUp x → keys' = keys) (h : stepWith keys rand s = .next t) :
    stepWith keys' rand' s = .next (t.withArgs keys' rand') := by
  obtain ⟨hrun, ⟨hpc, rfl⟩ | ⟨hpc, hexec⟩⟩ := stepWith_next_cases h
  · exact stepWith_of_fetch_fails keys' rand' hrun hpc
  · rw [stepWith_of_fetched keys' rand' hrun hpc]
    exact exec_withArgs hrandom hdown hup hexec

/-- The arguments stand in the next state as they were given. -/
theorem stepWith_latches {keys : Keys} {rand : Byte} {s t : State} (h : stepWith keys rand s = .next t) :
    t.key = keys ∧ t.rand = rand := by
  obtain ⟨-, ⟨-, rfl⟩ | ⟨-, hexec⟩⟩ := stepWith_next_cases h
  · exact ⟨rfl, rfl⟩
  · have keeps := handlerKeeps_writes (current s) (atHandler keys rand s)
    exact ⟨exec_keeps State.key (fun _ _ _ => rfl) hexec keeps.key,
      exec_keeps State.rand (fun _ _ _ => rfl) hexec keeps.rand⟩

/-- Settles O16: the step with the other argument ends alike, and the argument that is the same is latched already. -/
theorem argumentsAreReadByTheirInstructionsAlone : Obligations.ArgumentsAreReadByTheirInstructionsAlone := by
  intro keys keys' rand rand' s t h
  obtain ⟨rfl, rfl⟩ := stepWith_latches h
  constructor
  · intro hrandom
    exact stepWith_withArgs (fun x kk e => absurd e (hrandom x kk)) (fun _ _ => rfl) (fun _ _ => rfl) h
  · intro hdown hup
    exact stepWith_withArgs (fun _ _ _ => rfl) (fun x e => absurd e (hdown x)) (fun x e => absurd e (hup x)) h

/-! ## The invariant -/

/-- Phases 1 and 3 keep the invariant: it speaks of no field they write. -/
theorem State.Inv.atHandler {s : State} (h : s.Inv) (keys : Keys) (rand : Byte) : (atHandler keys rand s).Inv :=
  ⟨h.memCanonical, h.runTruthful, h.pcBound, h.stackBound⟩

/-- Taking the arguments of a step call keeps the invariant. -/
theorem State.Inv.takeInput {s : State} (h : s.Inv) : s.takeInput.Inv :=
  ⟨h.memCanonical, h.runTruthful, h.pcBound, h.stackBound⟩

/-- A fatal error is raised for its cause (60_exceptions.md R243 to R246). -/
theorem runTruthful_halt_of_fatalError {i : Instr} {s : State} {r : HaltReason} (hpc : s.pc.toNat ≤ 0xFFE)
    (h : fatalError i s = some r) : (s.halt r).runTruthful := by
  unfold fatalError at h
  split at h -- Call, Return, the two key skips, and the range check of all others
  · obtain ⟨hfull, ⟨⟩⟩ := Option.ite_none_right_eq_some.mp h
    exact ⟨hfull, hpc⟩
  · obtain ⟨hempty, ⟨⟩⟩ := Option.ite_none_right_eq_some.mp h
    exact ⟨hempty, hpc⟩
  · obtain ⟨hkey, ⟨⟩⟩ := Option.ite_none_right_eq_some.mp h
    exact ⟨hkey, hpc⟩
  · obtain ⟨hkey, ⟨⟩⟩ := Option.ite_none_right_eq_some.mp h
    exact ⟨hkey, hpc⟩
  · obtain ⟨a, ha, rfl⟩ := Option.map_eq_some_iff.mp h
    rw [outOfRange_eq] at ha
    obtain ⟨-, ⟨⟩⟩ := Option.ite_none_left_eq_some.mp ha
    exact ⟨rfl, hpc⟩

/-- The post-advance check makes `run` truthful. -/
theorem runTruthful_checkPc {s : State} (hrun : s.run = .running) : s.checkPc.runTruthful := by
  unfold State.runTruthful
  rw [State.checkPc_run, State.checkPc_pc, hrun]
  by_cases h : Config.memSize ≤ s.pc.toNat
  · rw [if_pos h]; exact h
  · rw [if_neg h]; exact Nat.not_le.mp h

theorem zext16_toNat (addr : Addr) : (zext16 addr).toNat = addr.toNat := by
  have := addr.isLt
  rw [zext16, BitVec.toNat_setWidth]
  omega

/-- A skip advances `PC` by 4 when its condition holds, else by 2 (40_step_cycle.md R127). -/
theorem skipIf_target (c : Bool) (pc : Word) : (skipIf c).target pc = pc + if c then 4 else 2 := by
  cases c <;> rfl

theorem skipIf_target_le (c : Bool) {pc : Word} (hpc : pc.toNat ≤ 0xFFE) : ((skipIf c).target pc).toNat ≤ 0x1002 := by
  rw [skipIf_target]
  split
  · bv_omega
  · bv_omega

/-- The bound of 10_state.md R27: it is reached by JumpIndexed with `V[0] = 0xFF` and `addr = 0xFFF`. -/
theorem outcome_target_le (i : Instr) {s : State} (hpc : s.pc.toNat ≤ 0xFFE)
    (hstack : ∀ j : Fin 16, s.stack[j.val].toNat ≤ 0x1000) : ((outcome i s).target s.pc).toNat ≤ 0x10FE := by
  have skip (c : Bool) : ((skipIf c).target s.pc).toNat ≤ 0x10FE := (skipIf_target_le c hpc).trans (by decide)
  have jump (addr : Addr) : (zext16 addr).toNat ≤ 0x10FE := by
    have := addr.isLt
    rw [zext16_toNat]
    omega
  cases i with
  | skipEqImm | skipNeImm | skipEqReg | skipNeReg | skipIfKeyDown | skipIfKeyUp => exact skip _
  | jump addr => exact jump addr
  | call addr => exact jump addr
  | jumpIndexed addr =>
    have h0 := (s.reg 0).isLt
    have haddr := addr.isLt
    simp only [outcome, Control.target, BitVec.toNat_ofNat]
    omega
  | ret => exact (hstack ⟨s.sp.val - 1, by omega⟩).trans (by decide)
  | _ => exact skip false

/-- The stack bound of the invariant: a Call pushes `PC + 2`, at most 0x1000 (42_control.md R152). -/
theorem writes_stack_le (i : Instr) {s : State} (hpc : s.pc.toNat ≤ 0xFFE)
    (hstack : ∀ j : Fin 16, s.stack[j.val].toNat ≤ 0x1000) (j : Fin 16) :
    ((writes i s).stack[j.val]).toNat ≤ 0x1000 := by
  by_cases hi : ∃ addr, i = .call addr
  · obtain ⟨addr, rfl⟩ := hi
    change ((s.stack.setIfInBounds s.sp.val (s.pc + 2))[j.val]).toNat ≤ 0x1000
    rw [Vector.getElem_setIfInBounds]
    split
    · bv_omega
    · exact hstack j
  · simp only [writes_stack s fun addr e => hi ⟨addr, e⟩]
    exact hstack j

/-- Every handler keeps the invariant. -/
theorem exec_inv {i : Instr} {s t : State} (hs : s.Inv) (hrun : s.run = .running) (hpc : s.pc.toNat ≤ 0xFFE)
    (h : exec i s = .next t) : t.Inv := by
  obtain ⟨r, he, rfl⟩ | ⟨-, rfl⟩ := exec_cases h
  · exact ⟨hs.memCanonical, runTruthful_halt_of_fatalError hpc he, hs.pcBound, hs.stackBound⟩
  · have keeps := handlerKeeps_writes i s
    refine ⟨keeps.wf hs.memCanonical, runTruthful_checkPc (keeps.run.trans hrun), ?_,
      writes_stack_le i hpc hs.stackBound⟩
    rw [State.checkPc_pc, State.advance_pc, keeps.pc]
    exact outcome_target_le i hpc hs.stackBound

/-- Every step with given arguments keeps the invariant. A Running machine has its `PC` in memory, so a fetch fails at
0xFFF only. -/
theorem stepWith_inv {keys : Keys} {rand : Byte} {s t : State} (hs : s.Inv) (h : stepWith keys rand s = .next t) :
    t.Inv := by
  obtain ⟨hrun, ⟨hpc, rfl⟩ | ⟨hpc, hexec⟩⟩ := stepWith_next_cases h
  · have hlt : s.pc.toNat < 4096 := by
      have := hs.runTruthful
      rwa [State.runTruthful, hrun] at this
    have hend : s.pc.toNat = 0xFFF := by omega
    exact ⟨hs.memCanonical, hend, hs.pcBound, hs.stackBound⟩
  · exact exec_inv (hs.atHandler keys rand) hrun hpc hexec

/-- Settles O28: a step call is a step with its arguments given, listed or free. -/
theorem everyStepKeepsTheInvariant : Obligations.EveryStepKeepsTheInvariant :=
  ⟨fun _ _ hs h => stepWith_inv hs.takeInput h, fun _ _ _ _ hs h => stepWith_inv hs h⟩

end Sys2Proof.Machine

/-! ## Memory -/

namespace Sys2Proof.Machine

open Claims

/-! ### The canonical form -/

/-- In a list with rising addresses every cell is found by its address: no earlier cell hides it. -/
theorem lookupCell_eq_some_iff {cs : List Host.Cell} (h : cs.Pairwise (fun c d => c.1 < d.1)) {a : Nat} {v : Byte} :
    lookupCell a cs = some v ↔ (a, v) ∈ cs := by
  induction cs with
  | nil => simp [lookupCell]
  | cons c cs ih =>
    obtain ⟨b, w⟩ := c
    obtain ⟨hlt, hcs⟩ := List.pairwise_cons.mp h
    rw [lookupCell, List.mem_cons, Prod.mk.injEq]
    by_cases e : a = b
    · subst e
      have hnot : (a, v) ∉ cs := fun hmem => Nat.lt_irrefl a (hlt _ hmem)
      simp [hnot, eq_comm]
    · simp [e, ih hcs]

/-- The cells of a canonical memory, read off: the addresses of memory that read otherwise than at reset. -/
theorem Memory.mem_cells_iff {m : Memory} (hm : m.wf) {a : Nat} {v : Byte} :
    (a, v) ∈ m.cells ↔ a < Config.memSize ∧ m.read a = v ∧ v ≠ m.unlisted a := by
  have hread : m.read a = (lookupCell a m.cells).getD (m.unlisted a) := rfl
  constructor
  · intro hmem
    obtain ⟨ha, hne⟩ := hm.2 _ hmem
    rw [hread, (lookupCell_eq_some_iff hm.1).mpr hmem]
    exact ⟨ha, rfl, hne⟩
  · rintro ⟨-, rfl, hne⟩
    rw [← lookupCell_eq_some_iff hm.1]
    cases hl : lookupCell a m.cells with
    | none => rw [hread, hl] at hne; exact absurd rfl hne
    | some w => rw [hread, hl]; rfl

/-- Lists with rising addresses and the same cells are the same list. -/
theorem cells_eq_of_mem_iff {cs ds : List Host.Cell} (hcs : cs.Pairwise (fun c d => c.1 < d.1))
    (hds : ds.Pairwise (fun c d => c.1 < d.1)) (h : ∀ c, c ∈ cs ↔ c ∈ ds) : cs = ds := by
  have nodup {l : List Host.Cell} (hl : l.Pairwise (fun c d => c.1 < d.1)) : l.Nodup :=
    List.Pairwise.imp (S := (· ≠ ·)) (fun hlt e => Nat.ne_of_lt hlt (congrArg Prod.fst e)) hl
  have hperm : cs.Perm ds := (List.perm_ext_iff_of_nodup (nodup hcs) (nodup hds)).mpr h
  exact hperm.eq_of_pairwise (fun _ _ _ _ hlt hgt => absurd hgt (Nat.lt_asymm hlt)) hcs hds

/-- Settles O30, by the laws of one write. -/
theorem readAfterWriteGivesTheByte : Obligations.ReadAfterWriteGivesTheByte :=
  fun m a v hm ha =>
    ⟨Memory.read_write_same hm ha v, fun _ hb => Memory.read_write_of_ne m hb v, Memory.write_wf hm a v⟩

/-- Settles O31: the cells of a canonical memory are determined by FONT and by what it reads as. -/
theorem equalMemoriesAreEqualData : Obligations.EqualMemoriesAreEqualData := by
  intro m m' hm hm' hfont hread
  have hcells : m.cells = m'.cells := by
    refine cells_eq_of_mem_iff hm.1 hm'.1 fun ⟨a, v⟩ => ?_
    rw [Memory.mem_cells_iff hm, Memory.mem_cells_iff hm', Memory.unlisted_congr hfont]
    exact and_congr_right fun ha => by rw [hread a ha]
  cases m
  cases m'
  cases hfont
  cases hcells
  rfl

/-! ### Which instructions write memory -/

/-- The writes touch no byte outside those stored from `I` up: the two stores write just these, the others none. -/
theorem writes_read {i : Instr} (s : State) {a : Nat} (ha : a < s.i.toNat ∨ s.i.toNat + storeCount i ≤ a) :
    (writes i s).mem.read a = s.mem.read a := by
  cases i with
  | storeBCD x => exact Memory.read_writeBytes_outside s.mem (bcdDigits (s.reg x)) ha
  | dumpRegisters x =>
    exact Memory.read_writeBytes_outside s.mem (s.firstRegs (x.val + 1)) (by rwa [State.firstRegs_length])
  | loadRegisters x => obtain ⟨v, h⟩ := s.loadRegs_eq s.i.toNat (x.val + 1); rw [writes, h]
  | _ => rfl

/-- Settles O25, byte by byte. -/
theorem onlyStoresWriteMemory : Obligations.OnlyStoresWriteMemory :=
  fun _ s _ h a ha => exec_keeps (fun s => s.mem.read a) (fun _ _ _ => rfl) h (writes_read s ha)

/-! ### Words in memory -/

/-- Two bytes stored in memory are the word there (20_memory.md R61). -/
theorem wordAt_writeBytes {m : Memory} (hm : m.wf) {a : Nat} (ha : a + 2 ≤ Config.memSize) (hi lo : Byte) :
    wordAt (m.writeBytes a [hi, lo]) a = wordOfBytes hi lo := by
  have hhi : (m.writeBytes a [hi, lo]).read a = hi :=
    Memory.read_writeBytes_inside hm [hi, lo] (j := 0) Nat.zero_lt_two ha
  have hlo : (m.writeBytes a [hi, lo]).read (a + 1) = lo :=
    Memory.read_writeBytes_inside hm [hi, lo] (j := 1) Nat.one_lt_two ha
  rw [← wordOfBytes_read, hhi, hlo]

/-- DumpRegisters where the range check passes (44_index_memory.md R205). -/
theorem exec_dumpRegisters_of_le {x : RegIdx} {s : State} (h : s.i.toNat + (x.val + 1) ≤ 4096) :
    exec (.dumpRegisters x) s = finish .cont (s.storeBytes s.i.toNat (s.firstRegs (x.val + 1))) := by
  have hrange : fatalError (.dumpRegisters x) s = none :=
    congrArg (Option.map HaltReason.memoryFault) (outOfRange_none (.inr h))
  rw [exec_eq, hrange]
  rfl

/-- Settles O32: the two bytes stored at `I` are the word at the advanced `PC`. -/
theorem storedBytesAreFetchedNext : Obligations.StoredBytesAreFetchedNext := by
  intro s hm hpc hi
  have hadd : (s.pc + 2).toNat = s.pc.toNat + 2 := by bv_omega
  have hroom : (s.pc + 2).toNat + 2 ≤ 4096 := by omega
  refine ⟨_, exec_dumpRegisters_of_le (by rw [hi]; exact hroom), ?_⟩
  have hword : wordAt (s.mem.writeBytes s.i.toNat [s.reg 0, s.reg 1]) (s.pc + 2).toNat =
      wordOfBytes (s.reg 0) (s.reg 1) := by
    rw [hi]; exact wordAt_writeBytes hm hroom _ _
  rw [← wordOfBytes_toNat, BitVec.ofNat_toNat, BitVec.setWidth_eq]
  exact congrArg decodeWord hword

/-- With 16 bits the word of the table is the number's low 16 bits. -/
theorem tableWord_16 (w : Nat) : tableWord 16 w = BitVec.ofNat 16 w := by
  apply BitVec.eq_of_toNat_eq
  simp [tableWord]

theorem decodeTableWord_eq (nbits w : Nat) : decodeTableWord nbits w = some (decodeWord (tableWord nbits w)) := by
  have h := decode_bytesOfWord (tableWord nbits w) []
  rw [List.append_nil] at h
  rw [decodeTableWord, h]

/-- Settles O6: the two bytes of the word are stored at `PC`, and put together again by the fetch. -/
theorem withFetchWordIsFetchedNext : Obligations.WithFetchWordIsFetchedNext := by
  intro s w hm hpc
  have hword : wordAt (s.withFetchWord 16 w).mem s.pc.toNat = tableWord 16 w :=
    (wordAt_writeBytes hm (Nat.add_le_add_right hpc 2) _ _).trans (wordOfBytes_bytesOfWord _)
  refine ⟨hword.trans (tableWord_16 w), ?_, fun a hne hne' => ?_, rfl⟩
  · rw [decodeTableWord_eq, ← hword]
    rfl
  · have hout : a < s.pc.toNat ∨ s.pc.toNat + 2 ≤ a := by omega
    exact Memory.read_writeBytes_outside s.mem (bytesOfWord (tableWord 16 w)) hout

/-! ### The fetched instruction -/

/-- Settles O9: the step's fetch and the decoder over bytes make the same word of the two bytes at `PC`. -/
theorem stepRunsTheDecodedInstruction : Obligations.StepRunsTheDecodedInstruction := by
  intro keys rand s hrun hpc
  refine ⟨stepWith_of_fetched keys rand hrun hpc, fun i rest h => ?_⟩
  rw [decode, wordOfBytes_read] at h
  cases h
  rfl

end Sys2Proof.Machine

/-! ## The decoder, the encoder and the opcode map -/

namespace Sys2Proof

open Machine.Claims

/-! ### Words and their fields -/

@[simp] theorem fields_packA (g : BitVec 4) (addr : Addr) :
    (fieldGroup (packA g addr)).val = g.toNat ∧ fieldAddr (packA g addr) = addr := by
  rw [← BitVec.toNat_inj, fieldGroup_val, fieldAddr_toNat, packA_toNat]
  omega

@[simp] theorem fields_packXK (g : BitVec 4) (x : Fin 16) (kk : Byte) :
    (fieldGroup (packXK g x kk)).val = g.toNat ∧ fieldX (packXK g x kk) = x ∧ fieldKK (packXK g x kk) = kk := by
  rw [← BitVec.toNat_inj, Fin.ext_iff, fieldGroup_val, fieldX_val, fieldKK_toNat, packXK_toNat]
  omega

@[simp] theorem fields_packXYN (g : BitVec 4) (x y n : Fin 16) :
    (fieldGroup (packXYN g x y n)).val = g.toNat ∧ fieldX (packXYN g x y n) = x ∧ fieldY (packXYN g x y n) = y ∧
      fieldN (packXYN g x y n) = n := by
  obtain ⟨hgroup, hx, hy, hn, -, -⟩ := fields_of_toNat x.isLt y.isLt n.isLt (packXYN_toNat g x y n)
  exact ⟨hgroup, Fin.ext hx, Fin.ext hy, Fin.ext hn⟩

theorem packXK_fields (w : Word) : packXK ⟨fieldGroup w⟩ (fieldX w) (fieldKK w) = w := by
  have hw := w.isLt
  rw [← BitVec.toNat_inj, packXK_toNat, BitVec.toNat_ofFin, fieldGroup_val, fieldX_val, fieldKK_toNat]
  omega

theorem packXYN_fields (w : Word) : packXYN ⟨fieldGroup w⟩ (fieldX w) (fieldY w) (fieldN w) = w := by
  have hw := w.isLt
  rw [← BitVec.toNat_inj, packXYN_toNat, BitVec.toNat_ofFin, fieldGroup_val, fieldX_val, fieldY_val, fieldN_val]
  omega

/-- The words of the statements are the encoder's. -/
theorem wordXYN_eq_packXYN (g : Nat) (x y n : Fin 16) : wordXYN g x y n = packXYN (BitVec.ofNat 4 g) x y n := by
  rw [← BitVec.toNat_inj, packXYN_toNat, wordXYN, BitVec.toNat_ofNat, BitVec.toNat_ofNat]
  omega

/-! ### The words decoded as `Unknown` -/

/-- The table of 30_encoding.md R89, of the fields that the decoder looks at. -/
theorem unknownWord_iff {w : Word} : unknownWord w = true ↔
    ((fieldGroup w).val = 0x0 ∧ (fieldN w).val ∉ [0x0, 0xE]) ∨
    ((fieldGroup w).val = 0x8 ∧ (fieldN w).val ∈ [0x8, 0x9, 0xA, 0xB, 0xC, 0xD, 0xF]) ∨
    ((fieldGroup w).val = 0xE ∧ (fieldKK w).toNat ∉ [0x9E, 0xA1]) ∨
    ((fieldGroup w).val = 0xF ∧ (fieldKK w).toNat ∉ [0x07, 0x15, 0x1E, 0x29, 0x33, 0x55, 0x65]) := by
  simp [unknownWord, fieldGroup_val, fieldN_val, fieldKK_toNat, or_assoc, and_assoc]

theorem decodeGroup0_eq_unknown_iff {w v : Word} :
    decodeGroup0 w = .unknown v ↔ w = v ∧ (fieldN w).val ∉ [0x0, 0xE] := by
  unfold decodeGroup0
  split <;> simp_all

/-- The keys of group 0x8 that no arm takes are the seven listed, since `n` has four bits. -/
theorem decodeGroup8_eq_unknown_iff {w v : Word} :
    decodeGroup8 w = .unknown v ↔ w = v ∧ (fieldN w).val ∈ [0x8, 0x9, 0xA, 0xB, 0xC, 0xD, 0xF] := by
  have hn := (fieldN w).isLt
  unfold decodeGroup8
  split <;> simp_all
  rintro rfl
  omega

theorem decodeGroupE_eq_unknown_iff {w v : Word} :
    decodeGroupE w = .unknown v ↔ w = v ∧ (fieldKK w).toNat ∉ [0x9E, 0xA1] := by
  unfold decodeGroupE
  split <;> simp_all

theorem decodeGroupF_eq_unknown_iff {w v : Word} :
    decodeGroupF w = .unknown v ↔ w = v ∧ (fieldKK w).toNat ∉ [0x07, 0x15, 0x1E, 0x29, 0x33, 0x55, 0x65] := by
  unfold decodeGroupF
  split <;> simp_all

/-- Group by group: four groups have a sub-key and may decode as `Unknown`, the other twelve never do. -/
theorem decodeWord_eq_unknown_iff {w v : Word} : decodeWord w = .unknown v ↔ w = v ∧ unknownWord w = true := by
  have hgroup := (fieldGroup w).isLt
  rw [unknownWord_iff]
  unfold decodeWord
  split
  case h_1 hg => simp [hg, decodeGroup0_eq_unknown_iff]
  case h_9 hg => simp [hg, decodeGroup8_eq_unknown_iff]
  case h_15 hg => simp [hg, decodeGroupE_eq_unknown_iff]
  case h_16 hg => simp [hg, decodeGroupF_eq_unknown_iff]
  case h_17 => grind -- the arm that four bits never take
  all_goals next hg => simp [hg]

theorem decodeWord_of_unknownWord {w : Word} (h : unknownWord w = true) : decodeWord w = .unknown w :=
  decodeWord_eq_unknown_iff.mpr ⟨rfl, h⟩

/-- Settles O3, by the decoder's groups. -/
theorem unknownWordsAreExactlyTheTable : Obligations.UnknownWordsAreExactlyTheTable :=
  ⟨fun _ => decodeWord_eq_unknown_iff.trans (and_iff_right rfl), fun _ _ h => (decodeWord_eq_unknown_iff.mp h).1.symm⟩

/-! ### Decoding what was encoded -/

theorem decodeWord_wf (w : Word) : (decodeWord w).wf = true := by
  cases h : decodeWord w with
  | unknown v =>
    obtain ⟨rfl, hw⟩ := decodeWord_eq_unknown_iff.mp h
    exact hw
  | _ => rfl

/-- The decoder finds the group, the sub-key and the operands where the format of the encoding packs them. -/
theorem decodeWord_encode {i : Instr} (h : i.wf = true) : decodeWord (encode i) = i := by
  cases i with
  | unknown w => exact decodeWord_of_unknownWord h
  | clear | ret => decide
  | jump | call | setIndex | jumpIndexed => simp [encode, decodeWord]
  | skipEqImm | skipNeImm | setImm | addImm | random => simp [encode, decodeWord]
  | skipEqReg | skipNeReg | draw => simp [encode, decodeWord]
  | move | or | and | xor | addReg | subReg | shiftRight | subnReg | shiftLeft =>
    simp [encode, decodeWord, decodeGroup8]
  | skipIfKeyDown | skipIfKeyUp => simp [encode, decodeWord, decodeGroupE]
  | getDelay | setDelay | addIndex | loadFontAddr | storeBCD | dumpRegisters | loadRegisters =>
    simp [encode, decodeWord, decodeGroupF]

/-- Settles O1: the round trip of words carries over to bytes. -/
theorem decodeOfEncodeIsTheInstruction : Obligations.DecodeOfEncodeIsTheInstruction := by
  refine ⟨fun i h => ⟨decodeWord_encode h, fun rest => ?_⟩, decodeWord_wf, rfl, rfl, fun x y => ?_, fun x => ?_,
    fun _ => rfl⟩
  · rw [encodeBytes, decode_bytesOfWord, decodeWord_encode h]
  · exact ⟨(wordXYN_eq_packXYN 0x5 x y 0).symm, (wordXYN_eq_packXYN 0x9 x y 0).symm⟩
  · exact ⟨(wordXYN_eq_packXYN 0x8 x 0 0x6).symm, (wordXYN_eq_packXYN 0x8 x 0 0xE).symm⟩

/-- Settles O4: the ignored fields do not occur in the arms of the decoder that the group and `n` select. -/
theorem ignoredBitsAreNotExamined : Obligations.IgnoredBitsAreNotExamined := by
  simp only [Obligations.IgnoredBitsAreNotExamined, wordXYN_eq_packXYN]
  refine ⟨fun x y => ?_, fun x y n h0 hE => ⟨_, decodeWord_of_unknownWord ?_⟩, fun x y n => ?_, fun x y => ?_⟩
  · simp [decodeWord, decodeGroup0]
  · have hkey : n.val ∉ [0x0, 0xE] := by
      rw [Fin.ne_iff_vne] at h0 hE
      simpa using And.intro h0 hE
    exact unknownWord_iff.mpr (.inl (by simpa using hkey))
  · simp [decodeWord]
  · simp [decodeWord, decodeGroup8]

/-! ### The rows of the opcode map -/

theorem and_groupMask_toNat (w : Word) : (w &&& 0xF000).toNat = (fieldGroup w).val * 0x1000 := by
  have h := packXK_group ⟨fieldGroup w⟩ (fieldX w) (fieldKK w)
  rw [packXK_fields] at h
  rw [h, packXK_toNat]
  simp

theorem and_nibbleMask_toNat (w : Word) : (w &&& 0xF00F).toNat = (fieldGroup w).val * 0x1000 + (fieldN w).val := by
  have h := packXYN_key ⟨fieldGroup w⟩ (fieldX w) (fieldY w) (fieldN w)
  rw [packXYN_fields] at h
  rw [h, packXYN_toNat]
  simp

theorem and_byteMask_toNat (w : Word) : (w &&& 0xF0FF).toNat = (fieldGroup w).val * 0x1000 + (fieldKK w).toNat := by
  have h := packXK_key ⟨fieldGroup w⟩ (fieldX w) (fieldKK w)
  rw [packXK_fields] at h
  rw [h, packXK_toNat]
  simp

theorem matches_group_row {row : OpcodeRow} (h : row ∈ opcodeMapGroups) (w : Word) :
    w &&& row.mask = row.bits ↔ (fieldGroup w).val = row.bits.toNat / 0x1000 := by
  have hrows : ∀ row ∈ opcodeMapGroups, row.mask = 0xF000 ∧ row.bits.toNat % 0x1000 = 0 := by decide
  obtain ⟨hmask, hbits⟩ := hrows row h
  rw [hmask, ← BitVec.toNat_inj, and_groupMask_toNat]
  omega

theorem matches_nibble_row {row : OpcodeRow} (h : row ∈ opcodeMapNibbles) (w : Word) : w &&& row.mask = row.bits ↔
    (fieldGroup w).val = row.bits.toNat / 0x1000 ∧ (fieldN w).val = row.bits.toNat % 0x1000 := by
  have hrows : ∀ row ∈ opcodeMapNibbles, row.mask = 0xF00F := by decide
  have hn := (fieldN w).isLt
  rw [hrows row h, ← BitVec.toNat_inj, and_nibbleMask_toNat]
  omega

theorem matches_byte_row {row : OpcodeRow} (h : row ∈ opcodeMapBytes) (w : Word) : w &&& row.mask = row.bits ↔
    (fieldGroup w).val = row.bits.toNat / 0x1000 ∧ (fieldKK w).toNat = row.bits.toNat % 0x1000 := by
  have hrows : ∀ row ∈ opcodeMapBytes, row.mask = 0xF0FF := by decide
  have hkk := (fieldKK w).isLt
  rw [hrows row h, ← BitVec.toNat_inj, and_byteMask_toNat]
  omega

theorem mem_opcodeMap {row : OpcodeRow} :
    row ∈ opcodeMap ↔ row ∈ opcodeMapGroups ∨ row ∈ opcodeMapNibbles ∨ row ∈ opcodeMapBytes := by
  simp only [opcodeMap, List.mem_append, or_assoc]

/-- A matching row gives the group and the sub-key, which select the decoder's arm: row by row, the row's variant. -/
theorem mnemonic_of_matches {w : Word} {row : OpcodeRow} (hrow : row ∈ opcodeMap) (h : w &&& row.mask = row.bits) :
    (decodeWord w).mnemonic = row.mnemonic := by
  have groups : ∀ row ∈ opcodeMapGroups, (fieldGroup w).val = row.bits.toNat / 0x1000 →
      (decodeWord w).mnemonic = row.mnemonic := by
    simp +contextual [opcodeMapGroups, decodeWord, Instr.mnemonic]
  have nibbles : ∀ row ∈ opcodeMapNibbles,
      (fieldGroup w).val = row.bits.toNat / 0x1000 ∧ (fieldN w).val = row.bits.toNat % 0x1000 →
      (decodeWord w).mnemonic = row.mnemonic := by
    simp +contextual [opcodeMapNibbles, decodeWord, decodeGroup0, decodeGroup8, Instr.mnemonic]
  have bytes : ∀ row ∈ opcodeMapBytes,
      (fieldGroup w).val = row.bits.toNat / 0x1000 ∧ (fieldKK w).toNat = row.bits.toNat % 0x1000 →
      (decodeWord w).mnemonic = row.mnemonic := by
    simp +contextual [opcodeMapBytes, decodeWord, decodeGroupE, decodeGroupF, Instr.mnemonic]
  obtain hr | hr | hr := mem_opcodeMap.mp hrow
  · exact groups row hr ((matches_group_row hr w).mp h)
  · exact nibbles row hr ((matches_nibble_row hr w).mp h)
  · exact bytes row hr ((matches_byte_row hr w).mp h)

theorem row_eq_of_mnemonic_eq {row row' : OpcodeRow} (hrow : row ∈ opcodeMap) (hrow' : row' ∈ opcodeMap)
    (h : row.mnemonic = row'.mnemonic) : row = row' := by
  have hnames : (opcodeMap.map OpcodeRow.mnemonic).Nodup := by decide
  exact List.inj_on_of_nodup_map hnames hrow hrow' h

theorem row_mnemonic_ne_of_unknownWord {w : Word} (hw : unknownWord w = true) {row : OpcodeRow}
    (hrow : row ∈ opcodeMap) : (decodeWord w).mnemonic ≠ row.mnemonic := by
  have hrows : ∀ row ∈ opcodeMap, "Unknown" ≠ row.mnemonic := by decide
  rw [decodeWord_of_unknownWord hw]
  exact hrows row hrow

/-- No row matches only in the four groups with a sub-key, and there only at a key that no row lists. -/
theorem unknownWord_of_no_row {w : Word} (h : ∀ row ∈ opcodeMap, w &&& row.mask ≠ row.bits) :
    unknownWord w = true := by
  have groups : ∀ row ∈ opcodeMapGroups, (fieldGroup w).val ≠ row.bits.toNat / 0x1000 :=
    fun row hr e => h row (mem_opcodeMap.mpr (.inl hr)) ((matches_group_row hr w).mpr e)
  have nibbles : ∀ row ∈ opcodeMapNibbles,
      ¬ ((fieldGroup w).val = row.bits.toNat / 0x1000 ∧ (fieldN w).val = row.bits.toNat % 0x1000) :=
    fun row hr e => h row (mem_opcodeMap.mpr (.inr (.inl hr))) ((matches_nibble_row hr w).mpr e)
  have bytes : ∀ row ∈ opcodeMapBytes,
      ¬ ((fieldGroup w).val = row.bits.toNat / 0x1000 ∧ (fieldKK w).toNat = row.bits.toNat % 0x1000) :=
    fun row hr e => h row (mem_opcodeMap.mpr (.inr (.inr hr))) ((matches_byte_row hr w).mpr e)
  have keyed : (fieldGroup w).val = 0x0 ∨ (fieldGroup w).val = 0x8 ∨ (fieldGroup w).val = 0xE ∨
      (fieldGroup w).val = 0xF := by
    have hgroup := (fieldGroup w).isLt
    simp [opcodeMapGroups] at groups
    omega
  rw [unknownWord_iff]
  obtain hg | hg | hg | hg := keyed
  · exact .inl ⟨hg, by simpa [opcodeMapNibbles, hg] using nibbles⟩
  · have hn := (fieldN w).isLt
    simp [opcodeMapNibbles, hg] at nibbles
    exact .inr (.inl ⟨hg, by simp; omega⟩)
  · exact .inr (.inr (.inl ⟨hg, by simpa [opcodeMapBytes, hg] using bytes⟩))
  · exact .inr (.inr (.inr ⟨hg, by simpa [opcodeMapBytes, hg] using bytes⟩))

theorem unknownWord_iff_no_row {w : Word} :
    unknownWord w = true ↔ ∀ row ∈ opcodeMap, w &&& row.mask ≠ row.bits :=
  ⟨fun hw _ hrow h => row_mnemonic_ne_of_unknownWord hw hrow (mnemonic_of_matches hrow h), unknownWord_of_no_row⟩

/-- A defined word matches the row of its own variant: it matches some row, and names tell the rows apart. -/
theorem matches_of_mnemonic {w : Word} {row : OpcodeRow} (hrow : row ∈ opcodeMap)
    (hname : (decodeWord w).mnemonic = row.mnemonic) : w &&& row.mask = row.bits := by
  have hdefined : ¬ unknownWord w = true := fun hw => row_mnemonic_ne_of_unknownWord hw hrow hname
  obtain ⟨row', hrow', h⟩ : ∃ row' ∈ opcodeMap, w &&& row'.mask = row'.bits := by
    simpa [unknownWord_iff_no_row] using hdefined
  rwa [row_eq_of_mnemonic_eq hrow hrow' (hname.symm.trans (mnemonic_of_matches hrow' h))]

/-- Settles O2: all rows that match a word bear the name of the one variant decoded from it. -/
theorem opcodeMapSaysWhatIsDecoded : Obligations.OpcodeMapSaysWhatIsDecoded := by
  intro w
  refine ⟨fun row hrow => ⟨mnemonic_of_matches hrow, matches_of_mnemonic hrow⟩, ?_, fun row hrow row' hrow' h h' => ?_⟩
  · rw [← unknownWord_iff_no_row]
    simp [decodeWord_eq_unknown_iff]
  · exact row_eq_of_mnemonic_eq hrow hrow' ((mnemonic_of_matches hrow h).symm.trans (mnemonic_of_matches hrow' h'))

end Sys2Proof

/-! ## The step cycle -/

namespace Sys2Proof.Machine

open Claims

/-! ### The arguments of a step call, and the refusal -/

/-- Settles O10: `step` takes its arguments off the list, if there are any. -/
theorem stepTakesListedOrFreeArguments : Obligations.StepTakesListedOrFreeArguments := by
  constructor
  · intro s a rest h
    simp only [step, State.nextInput, State.takeInput, h, List.tail_cons]
  · intro s h
    simp only [step, State.nextInput, State.takeInput, h, List.tail_nil]

theorem stepWith_of_halted (keys : Keys) (rand : Byte) {s : State} {r : HaltReason} (h : s.run = .halted r) :
    stepWith keys rand s = .refused .stepWhileHalted := by
  rw [stepWith, h]

/-- Settles O12: `step` is `stepWith` on a machine that is as Halted as before its arguments were taken. -/
theorem stepOnHaltedMachineIsRefused : Obligations.StepOnHaltedMachineIsRefused :=
  fun s _ h => ⟨stepWith_of_halted _ _ (s.takeInput_run.trans h), fun keys rand => stepWith_of_halted keys rand h⟩

/-- Settles O11: the state after a failed fetch is the latched one, halted. -/
theorem failedFetchHaltsTheCycle : Obligations.FailedFetchHaltsTheCycle := by
  intro keys rand s hrun hpc
  have hframe : Frame [.keys, .report, .arguments] [] s ((s.latch keys rand).halt .fetchOutOfBounds) := by
    refine ⟨fun p hp => ?_, fun r _ => rfl⟩
    cases p with
    | index | timer | display => rfl
    | callStack => exact ⟨rfl, rfl⟩
    | memory => exact ⟨rfl, fun _ => rfl⟩
    | keys | report | arguments => simp at hp
  exact ⟨_, stepWith_of_fetch_fails keys rand hrun hpc, rfl, rfl, rfl, rfl, hframe, rfl⟩

/-! ### A step answers, and latches the keys -/

theorem exec_answers_next (i : Instr) (s : State) : ∃ t, exec i s = .next t := by
  rw [exec_eq]
  cases fatalError i s with
  | some r => exact ⟨_, raise_eq r s⟩
  | none => exact ⟨_, finish_eq _ _⟩

/-- Settles O13: a failed fetch halts, and every handler ends in `finish` or `raise`, which both answer a next state. -/
theorem runningStepAlwaysAnswersNext : Obligations.RunningStepAlwaysAnswersNext := by
  intro keys rand s hrun
  by_cases hpc : s.pc.toNat ≤ 0xFFE
  · obtain ⟨t, ht⟩ := exec_answers_next (current s) (atHandler keys rand s)
    have hfont : t.mem.font = s.mem.font :=
      (exec_keeps (fun s => s.mem.font) (fun _ _ _ => rfl) ht (handlerKeeps_writes _ _).font :)
    exact ⟨t, (stepWith_of_fetched keys rand hrun hpc).trans ht, hfont⟩
  · exact ⟨_, stepWith_of_fetch_fails keys rand hrun (by omega), rfl⟩

/-- Settles O15: phase 1 latches the keys, and no handler's writes touch them. -/
theorem keyLatchIsTheStepArgument : Obligations.KeyLatchIsTheStepArgument :=
  ⟨fun _ _ _ _ h => (stepWith_latches h).1,
    fun i s _ h => exec_keeps State.key (fun _ _ _ => rfl) h (handlerKeeps_writes i s).key⟩

/-! ### The delay timer -/

theorem ticked_toNat (d : Byte) : (ticked d).toNat = d.toNat - 1 := by
  unfold ticked
  split
  case isTrue h => rw [h]; rfl
  case isFalse h => bv_omega

theorem writes_dt {i : Instr} (s : State) (hset : ∀ x, i ≠ .setDelay x) : (writes i s).dt = s.dt := by
  cases i with
  | setDelay x => exact absurd rfl (hset x)
  | loadRegisters x => obtain ⟨v, h⟩ := s.loadRegs_eq s.i.toNat (x.val + 1); rw [writes, h]
  | _ => rfl

/-- Settles O14: the handler runs on the decremented timer, and no handler but SetDelay's writes it. -/
theorem timerTicksInEveryFetchedStep : Obligations.TimerTicksInEveryFetchedStep := by
  intro keys rand s t _ h
  obtain ⟨-, ⟨hpc, rfl⟩ | ⟨hpc, hexec⟩⟩ := stepWith_next_cases h
  · exact ⟨fun _ => rfl, fun hle => by omega⟩
  · refine ⟨fun hgt => by omega, fun _ => ⟨fun x hx => ?_, fun hset => ?_⟩⟩
    · rw [hx] at hexec
      cases hexec
      rfl
    · have hdt : t.dt = ticked s.dt := exec_keeps State.dt (fun _ _ _ => rfl) hexec (writes_dt _ hset)
      rw [hdt, ticked_toNat]

/-! ### How a handler ends on a Running machine -/

/-- What a handler raises is an error, never a normal end (60_exceptions.md R241, R247). -/
theorem normal_eq_false_of_fatalError {i : Instr} {s : State} {r : HaltReason} (h : fatalError i s = some r) :
    r.normal = false := by
  unfold fatalError at h
  split at h -- Call, Return, the two key skips, and the range check of all others
  · obtain ⟨-, ⟨⟩⟩ := Option.ite_none_right_eq_some.mp h; rfl
  · obtain ⟨-, ⟨⟩⟩ := Option.ite_none_right_eq_some.mp h; rfl
  · obtain ⟨-, ⟨⟩⟩ := Option.ite_none_right_eq_some.mp h; rfl
  · obtain ⟨-, ⟨⟩⟩ := Option.ite_none_right_eq_some.mp h; rfl
  · obtain ⟨a, -, rfl⟩ := Option.map_eq_some_iff.mp h; rfl

/-- The post-advance check ends no run with a fatal error. -/
theorem endedFatally_checkPc {s : State} (hrun : s.run = .running) : s.checkPc.endedFatally = false := by
  by_cases h : Config.memSize ≤ s.pc.toNat
  · simp [State.endedFatally, h, HaltReason.normal]
  · simp [State.endedFatally, h, hrun]

/-- The two ends of a handler are told apart by whether the run has ended fatally. -/
theorem exec_cases_of_running {i : Instr} {s t : State} (hrun : s.run = .running) (h : exec i s = .next t) :
    (t.endedFatally = true ∧ ∃ r, fatalError i s = some r ∧ r.normal = false ∧ t = s.halt r) ∨
    (t.endedFatally = false ∧ fatalError i s = none ∧ t = ((writes i s).advance (outcome i s)).checkPc) := by
  obtain ⟨r, he, rfl⟩ | ⟨he, rfl⟩ := exec_cases h
  · have hr := normal_eq_false_of_fatalError he
    have hend : (s.halt r).endedFatally = !r.normal := rfl
    exact .inl ⟨by rw [hend, hr]; rfl, r, he, hr, rfl⟩
  · exact .inr ⟨endedFatally_checkPc ((handlerKeeps_writes i s).run.trans hrun), he, rfl⟩

theorem exec_of_not_endedFatally {i : Instr} {s t : State} (hrun : s.run = .running) (h : exec i s = .next t)
    (hend : t.endedFatally = false) :
    fatalError i s = none ∧ t = ((writes i s).advance (outcome i s)).checkPc := by
  obtain ⟨hfatal, -⟩ | ⟨-, hfinish⟩ := exec_cases_of_running hrun h
  · rw [hend] at hfatal; cases hfatal
  · exact hfinish

/-- Settles O18: only phase 6 writes `run`, by the `PC` that phase 5 wrote. -/
theorem postAdvanceCheckHaltsOutsideMemory : Obligations.PostAdvanceCheckHaltsOutsideMemory := by
  intro i s t hrun h hend
  obtain ⟨-, rfl⟩ := exec_of_not_endedFatally hrun h hend
  rw [State.checkPc_run, State.checkPc_pc]
  have hrun' : (writes i s).run = .running := (handlerKeeps_writes i s).run.trans hrun
  exact ⟨fun hge => if_pos hge, fun hlt => (if_neg (Nat.not_le.mpr hlt)).trans hrun'⟩

/-- Settles O20: a fatal error in a step is the handler's, raised on the state it was given. -/
theorem fatalErrorLeavesTheHandlersStateAlone : Obligations.FatalErrorLeavesTheHandlersStateAlone := by
  intro keys rand s t hrun h hend
  obtain ⟨-, ⟨-, rfl⟩ | ⟨-, hexec⟩⟩ := stepWith_next_cases h
  · cases hend
  · obtain ⟨-, r, -, hr, rfl⟩ | ⟨hnot, -⟩ := exec_cases_of_running (s := atHandler keys rand s) hrun hexec
    · exact ⟨r, hr, rfl, rfl⟩
    · rw [hend] at hnot; cases hnot

/-! ### The advance of `PC` -/

/-- A skip's outcome in the words of 40_step_cycle.md R126, with no wrap where a handler runs. -/
theorem skipsIf_of_pc {s t : State} (hpc : s.pc.toNat ≤ 0xFFE) {c : Bool} {p : Prop} (hc : c = true ↔ p)
    (ht : t.pc = (skipIf c).target s.pc) : skipsIf p s t := by
  rw [skipIf_target] at ht
  refine ⟨fun hp => ?_, fun hp => ?_⟩
  · rw [ht, if_pos (hc.mpr hp)]; bv_omega
  · rw [ht, if_neg (mt hc.mp hp)]; bv_omega

/-- The latch at a key number that a key skip accepts is read as the bit that is there. -/
theorem key_getD_eq {s : State} {x : RegIdx} (h : ¬ 16 ≤ (s.reg x).toNat) :
    s.key[(s.reg x).toNat]? = some (s.key[(s.reg x).toNat]?.getD false) := by
  rw [Vector.getElem?_eq_getElem (Nat.not_le.mp h)]
  rfl

/-- Phase 5 writes the `PC` that 40_step_cycle.md R126 and R127 give, for every instruction that raises no error: a
Return then has an entry to pop, and a key skip a key to test. -/
theorem advancesAs_of_pc {i : Instr} {s t : State} (hpc : s.pc.toNat ≤ 0xFFE) (he : fatalError i s = none)
    (ht : t.pc = (outcome i s).target s.pc) : advancesAs s t i := by
  cases i with
  | skipEqImm | skipEqReg => exact skipsIf_of_pc hpc beq_iff_eq ht
  | skipNeImm | skipNeReg => exact skipsIf_of_pc hpc bne_iff_ne ht
  | skipIfKeyDown x =>
    have hkey : ¬ 16 ≤ (s.reg x).toNat := fun h => by simp [fatalError, h] at he
    exact skipsIf_of_pc hpc (by rw [key_getD_eq hkey]; simp) ht
  | skipIfKeyUp x =>
    have hkey : ¬ 16 ≤ (s.reg x).toNat := fun h => by simp [fatalError, h] at he
    exact skipsIf_of_pc hpc (by rw [key_getD_eq hkey]; simp) ht
  | jump addr => exact (congrArg BitVec.toNat ht).trans (zext16_toNat addr)
  | call addr => exact (congrArg BitVec.toNat ht).trans (zext16_toNat addr)
  | jumpIndexed addr =>
    have hsum : (s.reg 0).toNat + addr.toNat < 2 ^ 16 := by have := (s.reg 0).isLt; have := addr.isLt; omega
    exact (congrArg BitVec.toNat ht).trans (Nat.mod_eq_of_lt hsum)
  | ret =>
    have hsp : s.sp.val ≠ 0 := fun h => by simp [fatalError, h] at he
    exact ⟨⟨s.sp.val - 1, by omega⟩, Nat.succ_pred_eq_of_ne_zero hsp, ht⟩
  | _ => exact (skipsIf_of_pc (c := false) hpc (by decide) ht).2 id

/-- Settles O17: without a fatal error the handler ended in `finish`, whose phase 5 moves `PC`. -/
theorem pcAdvancesByTheOutcome : Obligations.PcAdvancesByTheOutcome := by
  intro i s t hrun hpc h hend
  obtain ⟨he, rfl⟩ := exec_of_not_endedFatally hrun h hend
  refine advancesAs_of_pc hpc he ?_
  rw [State.checkPc_pc, State.advance_pc, (handlerKeeps_writes i s).pc]

/-! ### The result of a step -/

theorem Run.reason_isSome_iff (run : Run) : run.reason.isSome = true ↔ run ≠ .running := by
  cases run <;> simp [Run.reason]

theorem Run.reason_eq_some_iff (run : Run) (r : HaltReason) : run.reason = some r ↔ run = .halted r := by
  cases run <;> simp [Run.reason]

theorem writes_displayChanged_iff (i : Instr) {s : State} (hs : s.displayChanged = false) :
    (writes i s).displayChanged = true ↔ i = .clear ∨ ∃ x y n, i = .draw x y n := by
  cases i with
  | clear => exact ⟨fun _ => .inl rfl, fun _ => rfl⟩
  | draw x y n => exact ⟨fun _ => .inr ⟨x, y, n, rfl⟩, fun _ => rfl⟩
  | loadRegisters x => obtain ⟨v, h⟩ := s.loadRegs_eq s.i.toNat (x.val + 1); simp [writes, h, hs]
  | _ => simp [writes, hs]

theorem writes_unknown_iff (i : Instr) {s : State} (hs : s.unknown = none) (w : Word) :
    (writes i s).unknown = some w ↔ i = .unknown w := by
  cases i with
  | loadRegisters x => obtain ⟨v, h⟩ := s.loadRegs_eq s.i.toNat (x.val + 1); simp [writes, h, hs]
  | _ => simp [writes, hs]

/-- `display_changed` of 40_step_cycle.md R129: the step begins with false, and only a Clear or Draw that completes
writes true. -/
theorem stepWith_displayChanged_iff {keys : Keys} {rand : Byte} {s t : State} (h : stepWith keys rand s = .next t) :
    t.displayChanged = true ↔
      s.pc.toNat ≤ 0xFFE ∧ t.endedFatally = false ∧ (current s = .clear ∨ ∃ x y n, current s = .draw x y n) := by
  obtain ⟨hrun, ⟨hpc, rfl⟩ | ⟨hpc, hexec⟩⟩ := stepWith_next_cases h
  · exact ⟨fun htrue => (nomatch htrue), fun ⟨hle, _⟩ => by omega⟩
  · obtain ⟨hend, r, -, -, rfl⟩ | ⟨hend, -, rfl⟩ := exec_cases_of_running (s := atHandler keys rand s) hrun hexec
    · exact ⟨fun htrue => (nomatch htrue), fun ⟨_, hnot, _⟩ => by rw [hend] at hnot; cases hnot⟩
    · rw [State.checkPc_displayChanged, State.advance_displayChanged, writes_displayChanged_iff _ rfl]
      simp only [hpc, hend, true_and]

/-- `unknown` of 40_step_cycle.md R129: the step begins with none, and an Unknown, which raises no error, writes its
word. -/
theorem stepWith_unknown_iff {keys : Keys} {rand : Byte} {s t : State} (h : stepWith keys rand s = .next t) (w : Word) :
    t.unknown = some w ↔ s.pc.toNat ≤ 0xFFE ∧ current s = .unknown w := by
  obtain ⟨-, ⟨hpc, rfl⟩ | ⟨hpc, hexec⟩⟩ := stepWith_next_cases h
  · exact ⟨fun hsome => (nomatch hsome), fun ⟨hle, _⟩ => by omega⟩
  · obtain ⟨r, he, rfl⟩ | ⟨-, rfl⟩ := exec_cases hexec
    · exact ⟨fun hsome => (nomatch hsome), fun ⟨_, hw⟩ => by rw [hw] at he; cases he⟩
    · rw [State.checkPc_unknown, State.advance_unknown, writes_unknown_iff _ rfl]
      exact (and_iff_right hpc).symm

/-- Settles O19, field by field. -/
theorem stepResultReportsTheStep : Obligations.StepResultReportsTheStep :=
  fun _ _ _ t _ h =>
    ⟨t.run.reason_isSome_iff, rfl, t.run.reason_eq_some_iff, stepWith_displayChanged_iff h, stepWith_unknown_iff h⟩

/-! ### Runs -/

/-- The constructed machine has the invariant, whatever FONT is: no cell is listed. -/
theorem State.construct_inv (font : FontTable) : (State.construct font).Inv where
  memCanonical := ⟨.nil, fun _ h => nomatch h⟩
  runTruthful := (by decide : (0x200 : Word).toNat < Config.memSize)
  pcBound := by simp [State.construct]
  stackBound := fun j => by simp [State.construct]

/-- Load keeps the invariant: it writes memory, canonically, and nothing else. -/
theorem State.Inv.of_load {s t : State} (hs : s.Inv) {image : List Byte} (h : load image s = .next t) : t.Inv := by
  by_cases hlen : image.length ≤ 3584
  · rw [load_of_le hlen] at h
    cases h
    exact ⟨Memory.writeBytes_wf hs.memCanonical _ _, hs.runTruthful, hs.pcBound, hs.stackBound⟩
  · rw [load_of_gt (Nat.not_le.mp hlen)] at h
    cases h

/-- The invariant, carried along a run. -/
theorem Reaches.inv {s t : State} (h : Reaches s t) (hs : s.Inv) : t.Inv := by
  induction h with
  | here => exact hs
  | step keys rand _ next ih => exact stepWith_inv ih next

/-- A machine whose `run` is truthful, and which ended without a fatal error, ended at the end of memory or past it. -/
theorem State.running_or_endedNormally {s : State} (hs : s.runTruthful) (hend : s.endedFatally = false) :
    s.run = .running ∨ s.endedNormally = true ∧ 0xFFF ≤ s.pc.toNat := by
  unfold State.runTruthful at hs
  unfold State.endedFatally at hend
  unfold State.endedNormally
  cases hrun : s.run with
  | running => exact .inl rfl
  | halted r =>
    rw [hrun] at hs hend
    cases r with
    | fetchOutOfBounds => exact .inr ⟨rfl, Nat.le_of_eq hs.symm⟩
    | pcOutOfBounds => exact .inr ⟨rfl, (Nat.le_succ _).trans hs⟩
    | stackOverflow | stackUnderflow | memoryFault | keyIndexFault => cases hend

/-- Settles O29: the invariant holds after the load and along the run, and a Running machine answers. -/
theorem everyReachedStateIsSound : Obligations.EveryReachedStateIsSound := by
  intro font image s t hload
  have hs : s.Inv := (State.construct_inv font).of_load hload
  refine ⟨fun hreach => ⟨hreach.inv hs, fun hrun keys rand => ?_⟩, fun ⟨hreach, hend⟩ => ?_⟩
  · obtain ⟨u, hu, -⟩ := runningStepAlwaysAnswersNext keys rand t hrun
    exact ⟨u, hu, .step keys rand hreach hu⟩
  · exact State.running_or_endedNormally (hreach.inv hs).runTruthful hend

end Sys2Proof.Machine

/-! ## The display -/

namespace Sys2Proof.Machine

open Claims

/-- The end of a handler writes `PC` and `run`, of which no frame speaks. -/
theorem Frame.of_finish {parts : List Part} {regs : List RegIdx} {s u : State} (h : Frame parts regs s u)
    (c : Control) : Frame parts regs s (u.advance c).checkPc := by
  obtain ⟨hparts, hregs⟩ := h
  refine ⟨fun p hp => ?_, hregs⟩
  have hsame := hparts p hp
  cases p <;> exact hsame

/-- A handler that writes the display, its report and some registers has just these outside its frame. -/
theorem frame_screenWrites (s : State) {v : Vector Byte 16} {regs : List RegIdx}
    (hv : ∀ r, r ∉ regs → v[r.val] = s.reg r) (d : Display) (changed : Bool) :
    Frame [.display, .report] regs s { s with v := v, disp := d, displayChanged := changed } := by
  refine ⟨fun p hp => ?_, hv⟩
  cases p with
  | index | timer | keys => rfl
  | callStack => exact ⟨rfl, rfl⟩
  | memory => exact ⟨rfl, fun _ => rfl⟩
  | arguments => exact ⟨rfl, rfl, rfl⟩
  | display | report => simp at hp

/-- Settles O50: the pixels of the blank display are 0, and Clear writes no register. -/
theorem clearBlanksTheDisplay : Obligations.ClearBlanksTheDisplay :=
  fun s => ⟨_, rfl, Display.pixel_blank, rfl, rfl, rfl,
    (frame_screenWrites s (fun _ _ => rfl) Display.blank true).of_finish .cont⟩

/-! ### Draw -/

/-- Draw where the range check passes (41_display.md R141). -/
theorem exec_draw_of_le (x y : RegIdx) {n : Fin 16} {s : State} (h : n.val = 0 ∨ s.i.toNat + n.val ≤ 4096) :
    exec (.draw x y n) s = finish .cont (s.drawAt (s.reg x) (s.reg y) n.val) := by
  have hrange : fatalError (.draw x y n) s = none :=
    congrArg (Option.map HaltReason.memoryFault) (outOfRange_none h)
  rw [exec_eq, hrange]
  rfl

theorem frame_drawAt (s : State) (a b : Byte) (n : Nat) : Frame [.display, .report] [vf] s (s.drawAt a b n) :=
  frame_screenWrites s (fun _ hr => s.reg_setFlag_of_ne (mt List.mem_singleton.mpr hr) _) _ true

/-- The sprite covers exactly the pixels that a Draw flips. -/
theorem drawSprite_pixel_ne_iff (m : Memory) (base : Nat) (a b : Byte) {n : Nat} (hn : n ≤ 32) (d : Display)
    (px : Fin 64) (py : Fin 32) :
    (drawSprite m base a b n d).1.pixel px py ≠ d.pixel px py ↔ spriteCovers m base a b n px py = true := by
  have xor_flips : ∀ p c : Bool, (p ^^ c) ≠ p ↔ c = true := by decide
  rw [drawSprite_pixel m base a b hn, xor_flips]

/-- The collision flag says whether a set pixel was cleared: a set pixel is cleared exactly when it is covered. -/
theorem drawSprite_flag_iff_cleared (m : Memory) (base : Nat) (a b : Byte) {n : Nat} (hn : n ≤ 32) (d : Display) :
    (drawSprite m base a b n d).2 = true ↔
      ∃ px py, d.pixel px py = true ∧ (drawSprite m base a b n d).1.pixel px py = false := by
  rw [drawSprite_flag m base a b hn]
  refine exists_congr fun px => exists_congr fun py => ?_
  rw [← drawSprite_pixel_ne_iff m base a b hn d, and_comm]
  refine and_congr_right fun hset => ?_
  rw [hset, ne_eq, Bool.not_eq_true]

/-- Settles O51: the sprite's cover says which pixels flip, and the collision flag is left in VF. -/
theorem drawXorsTheSpriteAndFlagsCollision : Obligations.DrawXorsTheSpriteAndFlagsCollision := by
  refine fun x y n => ⟨?_, fun s hrange => ?_⟩
  · rw [wordXYN_eq_packXYN]
    exact decodeWord_encode (i := .draw x y n) rfl
  · have hn : n.val ≤ 32 := by omega
    have hflag := drawSprite_flag_iff_cleared s.mem s.i.toNat (s.reg x) (s.reg y) hn s.disp
    refine ⟨_, exec_draw_of_le x y hrange, fun px py => ?_, fun hcleared => ?_, fun hkept => ?_, rfl, rfl, rfl,
      (frame_drawAt s _ _ _).of_finish .cont⟩
    · exact (drawSprite_pixel_ne_iff _ _ _ _ hn _ px py).trans (spriteCovers_iff _ _ _ _ _ px py)
    · exact (s.reg_drawAt_vf _ _ _).trans (congrArg flagByte (hflag.mpr hcleared))
    · have hnone : (drawSprite s.mem s.i.toNat (s.reg x) (s.reg y) n.val s.disp).2 = false := by
        rw [← Bool.not_eq_true, hflag]
        rintro ⟨px, py, hset, hclear⟩
        exact Bool.false_ne_true (hclear.symm.trans (hkept px py hset))
      exact (s.reg_drawAt_vf _ _ _).trans (congrArg flagByte hnone)

/-- A display that is not blank has a set pixel. -/
theorem Display.exists_pixel_of_ne_blank {d : Display} (h : d ≠ Display.blank) :
    ∃ px py, d.pixel px py = true := by
  by_contra hnone
  simp only [not_exists, Bool.not_eq_true] at hnone
  exact h (Display.ext_pixel fun px py => (hnone px py).trans (Display.pixel_blank px py).symm)

/-- Settles O52: the first Draw keeps all that the second reads (O51's frame), so the second flips the same pixels
back. -/
theorem drawingTwiceErases : Obligations.DrawingTwiceErases := by
  intro x y n s hx hy hrange
  have draws := (drawXorsTheSpriteAndFlagsCollision x y n).2
  obtain ⟨t, ht, hflip, -, hkept, -, -, -, hparts, hregs⟩ := draws s hrange
  have hi : t.i = s.i := hparts .index (by decide)
  have hread : ∀ a, t.mem.read a = s.mem.read a := (hparts .memory (by decide)).2
  have hregx : t.reg x = s.reg x := hregs x (mt List.mem_singleton.mp hx)
  have hregy : t.reg y = s.reg y := hregs y (mt List.mem_singleton.mp hy)
  obtain ⟨u, hu, hflip', hcleared, -⟩ := draws t (by rwa [hi])
  simp only [hi, hread, hregx, hregy, ← hflip] at hflip'
  have eq_of_two_flips : ∀ p q r : Bool, (r ≠ q ↔ q ≠ p) → r = p := by decide
  have hback : u.disp = s.disp := Display.ext_pixel fun px py => eq_of_two_flips _ _ _ (hflip' px py)
  refine ⟨t, u, ht, hu, hback, fun hblank => ⟨hkept fun px py hset => ?_, fun hdrawn => ?_⟩⟩
  · simp [hblank] at hset
  · obtain ⟨px, py, hset⟩ := Display.exists_pixel_of_ne_blank hdrawn
    exact hcleared ⟨px, py, hset, by rw [hback, hblank, Display.pixel_blank]⟩

end Sys2Proof.Machine

/-! ## Control transfer -/

namespace Sys2Proof.Machine

open Claims

/-! ### The words of the statements are the encoder's -/

theorem wordA_eq_packA (g : Nat) (addr : Addr) : wordA g addr = packA (BitVec.ofNat 4 g) addr := by
  rw [← BitVec.toNat_inj, packA_toNat, wordA, BitVec.toNat_ofNat, BitVec.toNat_ofNat]
  omega

theorem wordXK_eq_packXK (g : Nat) (x : RegIdx) (kk : Byte) : wordXK g x kk = packXK (BitVec.ofNat 4 g) x kk := by
  rw [← BitVec.toNat_inj, packXK_toNat, wordXK, BitVec.toNat_ofNat, BitVec.toNat_ofNat]
  omega

/-! ### Frames, and the run state -/

theorem Frame.refl (parts : List Part) (regs : List RegIdx) (s : State) : Frame parts regs s s := by
  refine ⟨fun p _ => ?_, fun _ _ => rfl⟩
  cases p with
  | index | timer | display | keys => rfl
  | callStack | report => exact ⟨rfl, rfl⟩
  | memory => exact ⟨rfl, fun _ => rfl⟩
  | arguments => exact ⟨rfl, rfl, rfl⟩

/-- A handler that writes `SP` and the stack has just these outside its frame. -/
theorem frame_stackWrites (s : State) (sp : Fin 17) (stack : Vector Word 16) :
    Frame [.callStack] [] s { s with sp := sp, stack := stack } := by
  obtain ⟨hparts, hregs⟩ := Frame.refl [.callStack] [] s
  refine ⟨fun p hp => ?_, hregs⟩
  have hsame := hparts p hp
  cases p with
  | callStack => simp at hp
  | _ => exact hsame

/-- A Running machine runs on when no error is raised and `PC` stays in memory (40_step_cycle.md R128). -/
theorem run_of_exec {i : Instr} {s t : State} (hrun : s.run = .running) (h : exec i s = .next t)
    (he : fatalError i s = none) (hpc : t.pc.toNat < 4096) : t.run = .running := by
  obtain ⟨r, he', -⟩ | ⟨-, rfl⟩ := exec_cases h
  · rw [he] at he'; cases he'
  · exact (if_neg (Nat.not_le.mpr hpc)).trans ((handlerKeeps_writes i s).run.trans hrun)

/-! ### Jumps -/

/-- A byte and an address add up without a wrap (42_control.md R153). -/
theorem jumpIndexed_target_toNat (b : Byte) (addr : Addr) :
    (BitVec.ofNat 16 (b.toNat + addr.toNat)).toNat = b.toNat + addr.toNat := by
  have hb := b.isLt
  have haddr := addr.isLt
  exact Nat.mod_eq_of_lt (by omega)

/-- Settles O53: a jump writes nothing of its own, and phase 5 moves `PC` to the target. -/
theorem jumpsSetThePc : Obligations.JumpsSetThePc := by
  simp only [Obligations.JumpsSetThePc, wordA_eq_packA]
  refine ⟨fun addr => ⟨decodeWord_encode (i := .jump addr) rfl, fun s => ?_⟩,
    fun addr => ⟨decodeWord_encode (i := .jumpIndexed addr) rfl, fun s => ?_⟩⟩
  · exact ⟨_, rfl, zext16_toNat addr, (Frame.refl _ _ s).of_finish _⟩
  · exact ⟨_, rfl, jumpIndexed_target_toNat (s.reg 0) addr, (Frame.refl _ _ s).of_finish _⟩

/-! ### Call and Return -/

/-- Call with room on the stack (42_control.md R152). -/
theorem exec_call_of_lt (addr : Addr) {s : State} (h : s.sp.val < 16) :
    exec (.call addr) s = finish (.callTo (zext16 addr))
      { s with stack := s.stack.set s.sp.val (s.pc + 2), sp := ⟨s.sp.val + 1, by omega⟩ } := by
  simp only [exec, execCall, s.push_of_lt _ h]

/-- Return with an entry on the stack (42_control.md R150). -/
theorem exec_ret_of_pos {s : State} (h : 0 < s.sp.val) :
    exec .ret s = finish (.returnTo s.stack[s.sp.val - 1]) { s with sp := ⟨s.sp.val - 1, by omega⟩ } := by
  simp only [exec, execRet, s.pop_of_pos h]

/-- Settles O54: the push sets one entry of the stack. -/
theorem callPushesTheReturnAddress : Obligations.CallPushesTheReturnAddress := by
  refine fun addr => ⟨?_, fun s hroom => ?_⟩
  · rw [wordA_eq_packA]
    exact decodeWord_encode (i := .call addr) rfl
  · refine ⟨_, exec_call_of_lt addr hroom, rfl, fun j hj => ?_, fun j hj => ?_, zext16_toNat addr,
      (frame_stackWrites s _ _).of_finish _⟩
    · exact (Vector.getElem_set hroom j.isLt).trans (if_pos hj.symm)
    · exact Vector.getElem_set_ne hroom j.isLt hj.symm

/-- Settles O55: the pop moves `SP` alone. -/
theorem returnPopsThePc : Obligations.ReturnPopsThePc := by
  intro s hpos
  refine ⟨_, exec_ret_of_pos hpos, Nat.sub_add_cancel hpos, rfl, fun j hj => ?_, (frame_stackWrites s _ _).of_finish _⟩
  have hindex : s.sp.val - 1 = j.val := by omega
  simp only [State.checkPc_pc, State.advance_pc, Control.target, hindex]

/-- Settles O57: the Call leaves memory alone, so that the Return stands at its target, and the entry that the Return
pops is the one that the Call pushed. -/
theorem callThenReturnComesBack : Obligations.CallThenReturnComesBack := by
  intro keys keys' rand rand' addr s hrun hpc hroom haddr hcall hret
  obtain ⟨hdecode, calls⟩ := callPushesTheReturnAddress addr
  have hcurrent : current s = .call addr := by rw [current, hcall, hdecode]
  obtain ⟨t, ht, hsp, hpushed, -, htarget, hparts, -⟩ := calls (atHandler keys rand s) hroom
  have htrun : t.run = .running :=
    run_of_exec (s := atHandler keys rand s) hrun ht (if_neg (Nat.ne_of_lt hroom)) (by omega)
  have hread : ∀ a, t.mem.read a = s.mem.read a := (hparts .memory (by decide)).2
  have hcurrent' : current t = .ret := by
    simp only [current, wordAt, htarget, hread]
    exact (congrArg decodeWord hret).trans (decodeWord_encode (i := .ret) rfl)
  have hpos : 0 < t.sp.val := by omega
  obtain ⟨u, hu, husp, -, hpopped, -⟩ := returnPopsThePc (atHandler keys' rand' t) hpos
  have hupc : u.pc = s.pc + 2 := (hpopped ⟨s.sp.val, hroom⟩ hsp.symm).trans (hpushed ⟨s.sp.val, hroom⟩ rfl)
  have hback : u.pc.toNat = s.pc.toNat + 2 := by rw [hupc]; bv_omega
  have hurun : u.run = .running :=
    run_of_exec (s := atHandler keys' rand' t) htrun hu (if_neg (Nat.ne_of_gt hpos)) (by omega)
  refine ⟨t, u, ?_, htarget, ?_, hback, Fin.ext (Nat.succ.inj (husp.trans hsp)), hurun⟩
  · rw [stepWith_of_fetched keys rand hrun (by omega), hcurrent, ht]
  · rw [stepWith_of_fetched keys' rand' htrun (by omega), hcurrent', hu]

/-! ### Skips -/

/-- The end of a skip: nothing is written but `PC`, which moves by 4 or 2 (40_step_cycle.md R126, R127). -/
theorem finish_skipIf (s : State) {c : Bool} {p : Prop} [Decidable p] (hc : c = true ↔ p) :
    ∃ t, finish (skipIf c) s = .next t ∧ t.pc = s.pc + (if p then 4 else 2) ∧ Frame [] [] s t := by
  refine ⟨_, finish_eq _ s, ?_, (Frame.refl _ _ s).of_finish _⟩
  rw [State.checkPc_pc, State.advance_pc, skipIf_target]
  exact congrArg (s.pc + ·) (if_congr hc rfl rfl)

/-- Settles O58: the four conditions are (in)equalities of bytes. -/
theorem comparisonSkipsTestTheRegisters : Obligations.ComparisonSkipsTestTheRegisters := by
  obtain ⟨-, -, decodesRegs, -⟩ := ignoredBitsAreNotExamined
  simp only [Obligations.ComparisonSkipsTestTheRegisters, wordXK_eq_packXK]
  refine ⟨fun x kk => ⟨?_, fun s => ?_⟩, fun x kk => ⟨?_, fun s => ?_⟩, fun x y n => ⟨?_, fun s => ?_⟩,
    fun x y n => ⟨?_, fun s => ?_⟩⟩
  · exact decodeWord_encode (i := .skipEqImm x kk) rfl
  · exact finish_skipIf s beq_iff_eq
  · exact decodeWord_encode (i := .skipNeImm x kk) rfl
  · exact finish_skipIf s bne_iff_ne
  · exact (decodesRegs x y n).1
  · exact finish_skipIf s beq_iff_eq
  · exact (decodesRegs x y n).2
  · exact finish_skipIf s bne_iff_ne

/-- A byte that names a key finds it in the latch. -/
theorem State.keyAt_of_toNat_eq (s : State) {b : Byte} {k : Fin 16} (h : b.toNat = k.val) :
    s.keyAt b = some s.key[k.val] := by
  rw [State.keyAt, h, Vector.getElem?_eq_getElem k.isLt]

/-- Settles O59: the key is there, so neither skip raises an error. -/
theorem keySkipsTestTheLatch : Obligations.KeySkipsTestTheLatch := by
  simp only [Obligations.KeySkipsTestTheLatch, wordXK_eq_packXK]
  refine fun x => ⟨decodeWord_encode (i := .skipIfKeyDown x) rfl, decodeWord_encode (i := .skipIfKeyUp x) rfl,
    fun s k hk => ⟨?_, ?_⟩⟩
  · simp only [exec, execSkipIfKeyDown, s.keyAt_of_toNat_eq hk]
    exact finish_skipIf s Iff.rfl
  · simp only [exec, execSkipIfKeyUp, s.keyAt_of_toNat_eq hk]
    exact finish_skipIf s (Bool.not_eq_true' _).to_iff

end Sys2Proof.Machine

/-! ## Registers and ALU -/

namespace Sys2Proof.Machine

open Claims

/-! ### Handlers that write registers -/

/-- A handler that writes general registers alone has just these outside its frame. -/
theorem frame_regWrites (s : State) {v : Vector Byte 16} {regs : List RegIdx}
    (hv : ∀ r, r ∉ regs → v[r.val] = s.reg r) : Frame [] regs s { s with v := v } := by
  obtain ⟨hparts, -⟩ := Frame.refl [] regs s
  refine ⟨fun p hp => ?_, hv⟩
  have hsame := hparts p hp
  cases p <;> exact hsame

theorem frame_setReg (s : State) (x : RegIdx) (b : Byte) : Frame [] [x] s (s.setReg x b) :=
  frame_regWrites s fun _ hr => s.reg_setReg_of_ne (mt List.mem_singleton.mpr hr) b

theorem frame_setRegFlag (s : State) (x : RegIdx) (b : Byte) (f : Bool) :
    Frame [] [x, vf] s (s.setRegFlag x b f) := by
  refine frame_regWrites s fun r hr => ?_
  obtain ⟨hx, hvf⟩ : r ≠ x ∧ r ≠ vf := by simpa using hr
  exact s.reg_setRegFlag_of_ne hx hvf b f

/-- The end of a handler that writes one register: what holds of the byte written holds of the register after it. -/
theorem finish_setReg {p : Byte → Prop} (s : State) (x : RegIdx) {b : Byte} (hb : p b) :
    ∃ t, finish .cont (s.setReg x b) = .next t ∧ p (t.reg x) ∧ t.pc = s.pc + 2 ∧ Frame [] [x] s t := by
  refine ⟨_, finish_eq _ _, ?_, rfl, (frame_setReg s x b).of_finish _⟩
  rwa [State.checkPc_reg, State.advance_reg, State.reg_setReg_same]

/-- The end of a flag-writing handler (43_alu.md R171): the flag is written last, so VF holds it whatever `x` is. -/
theorem finish_setRegFlag {p q : Byte → Prop} (s : State) (x : RegIdx) {b : Byte} {f : Bool} (hb : p b)
    (hf : q (flagByte f)) :
    ∃ t, finish .cont (s.setRegFlag x b f) = .next t ∧ (x ≠ vf → p (t.reg x)) ∧ q (t.reg vf) ∧ t.pc = s.pc + 2 ∧
      Frame [] [x, vf] s t := by
  refine ⟨_, finish_eq _ _, fun hx => ?_, ?_, rfl, (frame_setRegFlag s x b f).of_finish _⟩
  · rwa [State.checkPc_reg, State.advance_reg, s.reg_setRegFlag_dest hx]
  · rwa [State.checkPc_reg, State.advance_reg, State.reg_setRegFlag_vf]

/-- A handler answers one state, so what holds of some state that it answers holds of each. -/
theorem of_exists_next {r : Result} {t : State} {p : State → Prop} (h : ∃ u, r = .next u ∧ p u) (ht : r = .next t) :
    p t := by
  obtain ⟨u, hu, hp⟩ := h
  rw [hu] at ht
  cases ht
  exact hp

/-! ### The values written -/

theorem trunc8_toNat (n : Nat) : (trunc8 n).toNat = n % 256 := BitVec.toNat_ofNat n 8

theorem trunc8Int_toNat (n : Int) : ((trunc8Int n).toNat : Int) = n % 256 := by
  rw [trunc8Int, BitVec.toNat_ofInt, Int.toNat_of_nonneg (Int.emod_nonneg n (by decide))]
  rfl

theorem shiftRight_one_toNat (a : Byte) : (a >>> 1).toNat = a.toNat / 2 := by
  rw [BitVec.toNat_ushiftRight, Nat.shiftRight_eq_div_pow, pow_one]

theorem shiftLeft_one_toNat (a : Byte) : (a <<< 1).toNat = a.toNat * 2 % 256 := by
  rw [BitVec.toNat_shiftLeft, Nat.shiftLeft_eq, pow_one]

/-! ### The flags written -/

theorem flagByte_decide (p : Prop) [Decidable p] : flagByte (decide p) = if p then 1 else 0 :=
  if_congr decide_eq_true_iff rfl rfl

theorem flagByte_toNat (f : Bool) : (flagByte f).toNat = f.toNat := by
  cases f <;> rfl

theorem flagByte_lowBitFlag_toNat (a : Byte) : (flagByte (lowBitFlag a)).toNat = a.toNat % 2 := by
  rw [flagByte_toNat, lowBitFlag, BitVec.getLsbD, Nat.toNat_testBit, pow_zero, Nat.div_one]

theorem flagByte_highBitFlag_toNat (a : Byte) : (flagByte (highBitFlag a)).toNat = a.toNat / 128 := by
  have ha := a.isLt
  rw [flagByte_toNat, highBitFlag, BitVec.getLsbD, Nat.toNat_testBit]
  omega

/-! ### Instructions without a flag -/

/-- Settles O33: the byte written is the immediate. -/
theorem setImmWritesTheImmediate : Obligations.SetImmWritesTheImmediate := by
  simp only [Obligations.SetImmWritesTheImmediate, wordXK_eq_packXK]
  exact fun x kk => ⟨decodeWord_encode (i := .setImm x kk) rfl, fun s => finish_setReg (p := (· = kk)) s x rfl⟩

/-- Settles O34: truncation to a byte is the remainder modulo 256. -/
theorem addImmAddsWithoutFlag : Obligations.AddImmAddsWithoutFlag := by
  simp only [Obligations.AddImmAddsWithoutFlag, wordXK_eq_packXK]
  exact fun x kk => ⟨decodeWord_encode (i := .addImm x kk) rfl,
    fun s => finish_setReg (p := fun v => v.toNat = _) s x (trunc8_toNat _)⟩

/-- Settles O35: the byte written is the source register's. -/
theorem moveCopiesTheRegister : Obligations.MoveCopiesTheRegister := by
  simp only [Obligations.MoveCopiesTheRegister, wordXYN_eq_packXYN]
  exact fun x y => ⟨decodeWord_encode (i := .move x y) rfl, fun s => finish_setReg (p := (· = s.reg y)) s x rfl⟩

/-- Settles O36: the operations on bytes are those on their bits. -/
theorem logicOpsAreBitwiseWithoutFlag : Obligations.LogicOpsAreBitwiseWithoutFlag := by
  simp only [Obligations.LogicOpsAreBitwiseWithoutFlag, wordXYN_eq_packXYN]
  refine ⟨fun x y => ⟨decodeWord_encode (i := .or x y) rfl, fun s => ?_⟩,
    fun x y => ⟨decodeWord_encode (i := .and x y) rfl, fun s => ?_⟩,
    fun x y => ⟨decodeWord_encode (i := .xor x y) rfl, fun s => ?_⟩⟩
  · exact finish_setReg (p := fun v => ∀ j, j < 8 → v.getLsbD j = ((s.reg x).getLsbD j || (s.reg y).getLsbD j)) s x
      fun _ _ => BitVec.getLsbD_or
  · exact finish_setReg (p := fun v => ∀ j, j < 8 → v.getLsbD j = ((s.reg x).getLsbD j && (s.reg y).getLsbD j)) s x
      fun _ _ => BitVec.getLsbD_and
  · exact finish_setReg (p := fun v => ∀ j, j < 8 → v.getLsbD j = ((s.reg x).getLsbD j ^^ (s.reg y).getLsbD j)) s x
      fun _ _ => BitVec.getLsbD_xor

/-- Settles O41: the handler masks the byte that phase 1 of its step latched. -/
theorem randomMasksTheFreeByte : Obligations.RandomMasksTheFreeByte := by
  simp only [Obligations.RandomMasksTheFreeByte, wordXK_eq_packXK]
  refine fun x kk => ⟨decodeWord_encode (i := .random x kk) rfl, fun s => ?_, fun keys rand s hrun hpc hcurrent => ?_⟩
  · exact finish_setReg (p := (· = s.rand &&& kk)) s x rfl
  · rw [stepWith_of_fetched keys rand hrun hpc, hcurrent]
    exact ⟨_, rfl, (atHandler keys rand s).reg_setReg_same x _⟩

/-! ### Instructions with a flag -/

/-- Settles O37: the truncated sum, and the carry. -/
theorem addRegGivesSumAndCarry : Obligations.AddRegGivesSumAndCarry := by
  simp only [Obligations.AddRegGivesSumAndCarry, wordXYN_eq_packXYN]
  exact fun x y => ⟨decodeWord_encode (i := .addReg x y) rfl, fun s =>
    finish_setRegFlag (p := fun v => v.toNat = _) (q := (· = _)) s x (trunc8_toNat _) (flagByte_decide _)⟩

/-- Settles O38: the truncated difference, and the strict comparison. -/
theorem subtractionsGiveDifferenceAndStrictFlag : Obligations.SubtractionsGiveDifferenceAndStrictFlag := by
  simp only [Obligations.SubtractionsGiveDifferenceAndStrictFlag, wordXYN_eq_packXYN]
  refine ⟨fun x y => ⟨decodeWord_encode (i := .subReg x y) rfl, fun s => ?_⟩,
    fun x y => ⟨decodeWord_encode (i := .subnReg x y) rfl, fun s => ?_⟩⟩
  · exact finish_setRegFlag (p := fun v => (v.toNat : Int) = _) (q := (· = _)) s x (trunc8Int_toNat _)
      (flagByte_decide _)
  · exact finish_setRegFlag (p := fun v => (v.toNat : Int) = _) (q := (· = _)) s x (trunc8Int_toNat _)
      (flagByte_decide _)

/-- Settles O39: a shift by one halves or doubles, and the bit it shifts out is the remainder or the quotient. -/
theorem shiftsGiveValueAndShiftedOutBit : Obligations.ShiftsGiveValueAndShiftedOutBit := by
  obtain ⟨-, -, -, decodesShifts⟩ := ignoredBitsAreNotExamined
  refine ⟨fun x y => ⟨(decodesShifts x y).1, fun s => ?_⟩, fun x y => ⟨(decodesShifts x y).2, fun s => ?_⟩⟩
  · exact finish_setRegFlag (p := fun v => v.toNat = _) (q := fun v => v.toNat = _) s x (shiftRight_one_toNat _)
      (flagByte_lowBitFlag_toNat _)
  · exact finish_setRegFlag (p := fun v => v.toNat = _) (q := fun v => v.toNat = _) s x (shiftLeft_one_toNat _)
      (flagByte_highBitFlag_toNat _)

/-! ### The arithmetic laws -/

/-- What a subtraction leaves for equal operands: a difference of 0 and no flag. -/
theorem sub_self_laws {a d f : Byte} (hd : (d.toNat : Int) = ((a.toNat : Int) - a.toNat) % 256)
    (hf : f = if a.toNat > a.toNat then 1 else 0) : d = 0 ∧ f = 0 := by
  refine ⟨?_, hf.trans (if_neg (lt_irrefl _))⟩
  rw [← BitVec.toNat_inj, BitVec.ofNat_eq_ofNat, BitVec.toNat_zero]
  omega

/-- Settles O40, from what O34 and O37 to O39 say of the next state. -/
theorem arithmeticLawsHold : Obligations.ArithmeticLawsHold := by
  intro x y s t hx
  have ha := (s.reg x).isLt
  have hb := (s.reg y).isLt
  refine ⟨fun h => ?_, fun h => ?_, fun h => ?_, fun h heq => ?_, fun kk h => ?_⟩
  · obtain ⟨hval, hflag, -⟩ := of_exists_next ((shiftsGiveValueAndShiftedOutBit.1 x y).2 s) h
    have hval := hval hx
    omega
  · obtain ⟨hval, hflag, -⟩ := of_exists_next ((shiftsGiveValueAndShiftedOutBit.2 x y).2 s) h
    have hval := hval hx
    omega
  · obtain ⟨hval, hflag, -⟩ := of_exists_next ((addRegGivesSumAndCarry x y).2 s) h
    have hval := hval hx
    rw [hflag, hval]
    split
    · change _ = 1 * 256 + _
      omega
    · change _ = 0 * 256 + _
      omega
  · obtain h | h := h
    · obtain ⟨hval, hflag, -⟩ := of_exists_next ((subtractionsGiveDifferenceAndStrictFlag.1 x y).2 s) h
      exact sub_self_laws (heq ▸ hval hx) (heq ▸ hflag)
    · obtain ⟨hval, hflag, -⟩ := of_exists_next ((subtractionsGiveDifferenceAndStrictFlag.2 x y).2 s) h
      exact sub_self_laws (heq ▸ hval hx) (heq ▸ hflag)
  · obtain ⟨-, -, -, hregs⟩ := of_exists_next ((addImmAddsWithoutFlag x kk).2 s) h
    exact hregs vf (mt List.mem_singleton.mp (Ne.symm hx))

end Sys2Proof.Machine

/-! ## Index register and memory -/

namespace Sys2Proof.Machine

open Claims

/-! ### What the handlers leave unchanged -/

/-- A handler that writes `I` or memory, each only where it is listed, leaves the rest in its frame. -/
theorem frame_indexMemoryWrites (s : State) {i : Word} {m : Memory} {parts : List Part}
    (hi : .index ∉ parts → i = s.i) (hm : .memory ∉ parts → m = s.mem) :
    Frame parts [] s { s with i := i, mem := m } := by
  obtain ⟨hparts, hregs⟩ := Frame.refl parts [] s
  refine ⟨fun p hp => ?_, hregs⟩
  have hsame := hparts p hp
  cases p with
  | index => exact hi hp
  | memory => rw [hm hp]; exact hsame
  | _ => exact hsame

theorem frame_indexWrite (s : State) (i : Word) : Frame [.index] [] s { s with i := i } :=
  frame_indexMemoryWrites s (absurd List.mem_cons_self) fun _ => rfl

theorem frame_storeBytes (s : State) (a : Nat) (bs : List Byte) : Frame [.memory] [] s (s.storeBytes a bs) :=
  frame_indexMemoryWrites s (fun _ => rfl) (absurd List.mem_cons_self)

/-- Loading registers writes those below the count alone. -/
theorem frame_loadRegs (s : State) (base : Nat) {n : Nat} (hn : n ≤ 16) :
    Frame [] ((List.finRange 16).filter (·.val < n)) s (s.loadRegs base n) := by
  have hkept : ∀ r, r ∉ (List.finRange 16).filter (·.val < n) → (s.loadRegs base n).reg r = s.reg r := fun r hr =>
    (s.loadRegs_reg base hn r).trans (if_neg (by simpa using hr))
  obtain ⟨v, h⟩ := s.loadRegs_eq base n
  rw [h] at hkept ⊢
  exact frame_regWrites s hkept

/-! ### The index register -/

/-- The end of a handler that writes `I` alone. -/
theorem finish_indexWrite (s : State) {i : Word} {n : Nat} (hi : i.toNat = n) :
    ∃ t, finish .cont { s with i := i } = .next t ∧ t.i.toNat = n ∧ t.pc = s.pc + 2 ∧ Frame [.index] [] s t :=
  ⟨_, finish_eq _ _, hi, rfl, (frame_indexWrite s i).of_finish _⟩

/-- The address of a glyph, five bytes each, fits in 16 bits (44_index_memory.md R202). -/
theorem glyphAddr_toNat (b : Byte) : (BitVec.ofNat 16 (b.toNat * 5)).toNat = b.toNat * 5 := by
  have hb := b.isLt
  exact Nat.mod_eq_of_lt (by omega)

/-- Settles O45: each handler writes `I` alone, and only AddIndex's sum can wrap. -/
theorem indexInstructionsWriteI : Obligations.IndexInstructionsWriteI := by
  simp only [Obligations.IndexInstructionsWriteI, wordA_eq_packA, wordXK_eq_packXK]
  refine ⟨fun addr => ⟨decodeWord_encode (i := .setIndex addr) rfl, fun s => ?_⟩,
    fun x => ⟨decodeWord_encode (i := .addIndex x) rfl, fun s => ?_⟩,
    fun x => ⟨decodeWord_encode (i := .loadFontAddr x) rfl, fun s => ?_⟩⟩
  · exact finish_indexWrite s (zext16_toNat addr)
  · exact finish_indexWrite s (BitVec.toNat_ofNat _ 16)
  · exact finish_indexWrite s (glyphAddr_toNat (s.reg x))

/-! ### The range check of the four instructions that access memory -/

/-- An instruction that accesses memory is range-checked, and goes on to the next one (44_index_memory.md R204). -/
theorem exec_of_accesses {i : Instr} (s : State) (hcount : 0 < accessCount i) :
    exec i s = answer ((outOfRange s.i.toNat (accessCount i)).map .memoryFault) .cont (writes i s) s := by
  cases i with
  | draw | storeBCD | dumpRegisters | loadRegisters => exact exec_eq _ s
  | _ => exact absurd hcount (lt_irrefl 0)

theorem exec_of_access_fits {i : Instr} {s : State} (hcount : 0 < accessCount i)
    (hfits : s.i.toNat + accessCount i ≤ 4096) : exec i s = finish .cont (writes i s) := by
  rw [exec_of_accesses s hcount, outOfRange_none (.inr hfits)]
  rfl

/-- Settles O49: the range check finds the lowest address out of range, and a fatal error writes nothing but `run`. -/
theorem outOfRangeAccessIsAMemoryFault : Obligations.OutOfRangeAccessIsAMemoryFault := by
  intro i s hcount hout
  rw [exec_of_accesses s hcount, outOfRange_some hcount hout]
  rfl

/-! ### StoreBCD and DumpRegisters -/

/-- A digit fits in a byte: the hundreds are at most 2. -/
theorem bcdDigits_map_toNat (b : Byte) :
    (bcdDigits b).map BitVec.toNat = [b.toNat / 100, b.toNat / 10 % 10, b.toNat % 10] := by
  have hb := b.isLt
  have fits {n : Nat} (h : n < 256) : (trunc8 n).toNat = n := (trunc8_toNat n).trans (Nat.mod_eq_of_lt h)
  simp only [bcdDigits, List.map_cons, List.map_nil]
  rw [fits (by omega), fits (by omega), fits (by omega)]

/-- The digits stored are read back, hundreds at the lowest address (44_index_memory.md R203). -/
theorem read_writeBytes_bcdDigits_toNat {m : Memory} (hm : m.wf) {a : Nat} (ha : a + 3 ≤ 4096) (b : Byte) {j : Nat}
    (hj : j < 3) : ((m.writeBytes a (bcdDigits b)).read (a + j)).toNat =
      [b.toNat / 100, b.toNat / 10 % 10, b.toNat % 10][j] := by
  have hj' : j < ((bcdDigits b).map BitVec.toNat).length := hj
  calc ((m.writeBytes a (bcdDigits b)).read (a + j)).toNat
    _ = ((bcdDigits b)[j]'hj).toNat := congrArg BitVec.toNat (Memory.read_writeBytes_inside hm (bcdDigits b) hj ha)
    _ = ((bcdDigits b).map BitVec.toNat)[j] := (List.getElem_map BitVec.toNat).symm
    _ = [b.toNat / 100, b.toNat / 10 % 10, b.toNat % 10][j] := List.getElem_of_eq (bcdDigits_map_toNat b) hj'

/-- Settles O46: the three digits are stored from `I` up, and each is read back. -/
theorem storeBCDWritesThreeDigits : Obligations.StoreBCDWritesThreeDigits := by
  simp only [Obligations.StoreBCDWritesThreeDigits, wordXK_eq_packXK]
  refine fun x => ⟨decodeWord_encode (i := .storeBCD x) rfl, fun s hm hlast => ?_⟩
  have hfits : s.i.toNat + 3 ≤ 4096 := hlast
  have digit {j : Nat} (hj : j < 3) := read_writeBytes_bcdDigits_toNat hm hfits (s.reg x) hj
  exact ⟨_, exec_of_access_fits (i := .storeBCD x) (Nat.succ_pos 2) hfits,
    digit (j := 0) (by decide), digit (j := 1) (by decide), digit (j := 2) (by decide),
    fun a ha => Memory.read_writeBytes_outside s.mem (bcdDigits (s.reg x)) ha, Memory.writeBytes_font _ _ _, rfl,
    (frame_storeBytes s _ _).of_finish .cont⟩

/-- Settles O47: the registers up to `V[x]` are stored from `I` up, and each is read back. -/
theorem dumpRegistersStoresTheRegisters : Obligations.DumpRegistersStoresTheRegisters := by
  simp only [Obligations.DumpRegistersStoresTheRegisters, wordXK_eq_packXK]
  refine fun x => ⟨decodeWord_encode (i := .dumpRegisters x) rfl, fun s hm hfits => ?_⟩
  have hlen : (s.firstRegs (x.val + 1)).length = x.val + 1 := s.firstRegs_length _
  refine ⟨_, exec_dumpRegisters_of_le hfits, fun r hr => ?_, fun a ha => ?_, Memory.writeBytes_font _ _ _, rfl,
    (frame_storeBytes s _ _).of_finish .cont⟩
  · have hr : r.val < (s.firstRegs (x.val + 1)).length := hlen.symm ▸ Nat.lt_succ_of_le hr
    calc (s.mem.writeBytes s.i.toNat (s.firstRegs (x.val + 1))).read (s.i.toNat + r.val)
      _ = (s.firstRegs (x.val + 1))[r.val] := Memory.read_writeBytes_inside hm _ hr (hlen.symm ▸ hfits)
      _ = s.reg (regAt r.val) := s.firstRegs_getElem hr
      _ = s.reg r := by rw [regAt_val]
  · exact Memory.read_writeBytes_outside s.mem _ (hlen.symm ▸ ha)

/-! ### LoadRegisters -/

/-- Settles O48: the registers up to `V[x]` are loaded, and all else is in the frame. -/
theorem loadRegistersLoadsTheRegisters : Obligations.LoadRegistersLoadsTheRegisters := by
  simp only [Obligations.LoadRegistersLoadsTheRegisters, wordXK_eq_packXK]
  refine fun x => ⟨decodeWord_encode (i := .loadRegisters x) rfl, fun s hfits => ?_⟩
  have hcount : x.val + 1 ≤ 16 := x.isLt
  obtain ⟨hparts, hregs⟩ := (frame_loadRegs s s.i.toNat hcount).of_finish .cont
  refine ⟨_, exec_of_access_fits (i := .loadRegisters x) x.val.succ_pos hfits, fun r hr => ?_, fun r hr => ?_, ?_,
    fun p => hparts p List.not_mem_nil⟩
  · exact (s.loadRegs_reg _ hcount r).trans (if_pos (Nat.lt_succ_of_le hr))
  · exact hregs r (by simpa using hr)
  · exact congrArg (· + 2) (handlerKeeps_writes (.loadRegisters x) s).pc

end Sys2Proof.Machine

/-! ## The delay timer's instructions, and Unknown -/

namespace Sys2Proof.Machine

open Claims

/-- A handler that writes `DT` or the reported word, each only where it is listed, leaves the rest in its frame. -/
theorem frame_timerReportWrites (s : State) {dt : Byte} {unknown : Option Word} {parts : List Part}
    (hdt : .timer ∉ parts → dt = s.dt) (hunknown : .report ∉ parts → unknown = s.unknown) :
    Frame parts [] s { s with dt := dt, unknown := unknown } := by
  obtain ⟨hparts, hregs⟩ := Frame.refl parts [] s
  refine ⟨fun p hp => ?_, hregs⟩
  have hsame := hparts p hp
  cases p with
  | timer => exact hdt hp
  | report => exact ⟨rfl, hunknown hp⟩
  | _ => exact hsame

/-- Settles O44: the handler writes the reported word alone. -/
theorem unknownIsAReportedNoOp : Obligations.UnknownIsAReportedNoOp := by
  intro w s
  have hframe : Frame [.report] [] s { s with unknown := some w } :=
    frame_timerReportWrites s (fun _ => rfl) (absurd List.mem_cons_self)
  exact ⟨_, rfl, rfl, rfl, rfl, hframe.of_finish .cont⟩

/-- Settles O42: the handler runs on the decremented timer, which GetDelay reads and SetDelay overwrites. -/
theorem delayInstructionsMoveTheTimer : Obligations.DelayInstructionsMoveTheTimer := by
  simp only [Obligations.DelayInstructionsMoveTheTimer, wordXK_eq_packXK]
  refine ⟨fun x => ⟨decodeWord_encode (i := .getDelay x) rfl, fun s => ?_, fun keys rand s hrun hpc hcurrent => ?_⟩,
    fun x => ⟨decodeWord_encode (i := .setDelay x) rfl, fun s => ?_, fun keys rand s hrun hpc hcurrent => ?_⟩⟩
  · exact finish_setReg (p := (· = s.dt)) s x rfl
  · obtain ⟨t, ht, hvalue, -⟩ := finish_setReg (p := (· = ticked s.dt)) (atHandler keys rand s) x rfl
    refine ⟨t, ?_, (congrArg BitVec.toNat hvalue).trans (ticked_toNat s.dt)⟩
    rw [stepWith_of_fetched keys rand hrun hpc, hcurrent]
    exact ht
  · have hframe : Frame [.timer] [] s { s with dt := s.reg x } :=
      frame_timerReportWrites s (absurd List.mem_cons_self) fun _ => rfl
    exact ⟨_, rfl, rfl, rfl, hframe.of_finish .cont⟩
  · rw [stepWith_of_fetched keys rand hrun hpc, hcurrent]
    exact ⟨_, rfl, rfl⟩

/-- Settles O43: SetDelay leaves memory alone, so that the GetDelay stands at the advanced `PC`, and its step decrements
the value written before it reads it. -/
theorem getDelayAfterSetDelayReadsOneLess : Obligations.GetDelayAfterSetDelayReadsOneLess := by
  intro keys keys' rand rand' x y s hrun hpc hset hget
  obtain ⟨gets, sets⟩ := delayInstructionsMoveTheTimer
  obtain ⟨decodesGet, -, getStep⟩ := gets y
  obtain ⟨decodesSet, setExec, -⟩ := sets x
  have hcurrent : current s = .setDelay x := (congrArg decodeWord hset).trans decodesSet
  obtain ⟨t, ht, hdt, htpc, hparts, -⟩ := setExec (atHandler keys rand s)
  have hnext : t.pc.toNat = s.pc.toNat + 2 := by
    have hadd : (s.pc + 2).toNat = s.pc.toNat + 2 := by bv_omega
    exact (congrArg BitVec.toNat htpc).trans hadd
  have htrun : t.run = .running := run_of_exec (s := atHandler keys rand s) hrun ht rfl (by omega)
  have hread : ∀ a, t.mem.read a = s.mem.read a := (hparts .memory (by decide)).2
  have hcurrent' : current t = .getDelay y := by
    simp only [current, wordAt, hnext, hread]
    exact (congrArg decodeWord hget).trans decodesGet
  obtain ⟨u, hu, hvalue⟩ := getStep keys' rand' t htrun (by omega) hcurrent'
  refine ⟨t, u, ?_, hdt, hu, hvalue.trans (congrArg (·.toNat - 1) hdt)⟩
  rw [stepWith_of_fetched keys rand hrun (by omega), hcurrent, ht]

end Sys2Proof.Machine

/-! ## Errors and halts -/

namespace Sys2Proof.Machine

open Claims

/-! ### The causes of the fatal errors -/

/-- An instruction that accesses no memory has nothing out of range; one that does is range-checked alone. -/
theorem fatalError_of_accesses {i : Instr} (s : State) (hcount : 0 < accessCount i) :
    fatalError i s = (outOfRange s.i.toNat (accessCount i)).map .memoryFault := by
  cases i with
  | draw | storeBCD | dumpRegisters | loadRegisters => rfl
  | _ => exact absurd hcount (lt_irrefl 0)

/-- The four fatal errors, each with its cause and its info (60_exceptions.md R243 to R246). -/
theorem fatalError_eq_some_iff {i : Instr} {s : State} {r : HaltReason} : fatalError i s = some r ↔
    ((∃ addr, i = .call addr) ∧ s.sp.val = 16 ∧ r = .stackOverflow) ∨
    (i = .ret ∧ s.sp.val = 0 ∧ r = .stackUnderflow) ∨
    (∃ x, (i = .skipIfKeyDown x ∨ i = .skipIfKeyUp x) ∧ 16 ≤ (s.reg x).toNat ∧ r = .keyIndexFault (s.reg x)) ∨
    (0 < accessCount i ∧ 4096 < s.i.toNat + accessCount i ∧ r = .memoryFault (max s.i.toNat 4096)) := by
  constructor
  · intro h
    unfold fatalError at h
    split at h -- Call, Return, the two key skips, and the range check of all others
    · obtain ⟨hfull, ⟨⟩⟩ := Option.ite_none_right_eq_some.mp h
      exact .inl ⟨⟨_, rfl⟩, hfull, rfl⟩
    · obtain ⟨hempty, ⟨⟩⟩ := Option.ite_none_right_eq_some.mp h
      exact .inr (.inl ⟨rfl, hempty, rfl⟩)
    · obtain ⟨hkey, ⟨⟩⟩ := Option.ite_none_right_eq_some.mp h
      exact .inr (.inr (.inl ⟨_, .inl rfl, hkey, rfl⟩))
    · obtain ⟨hkey, ⟨⟩⟩ := Option.ite_none_right_eq_some.mp h
      exact .inr (.inr (.inl ⟨_, .inr rfl, hkey, rfl⟩))
    · obtain ⟨a, ha, rfl⟩ := Option.map_eq_some_iff.mp h
      rw [outOfRange_eq] at ha
      obtain ⟨hout, ⟨⟩⟩ := Option.ite_none_left_eq_some.mp ha
      exact .inr (.inr (.inr ⟨by omega, by omega, rfl⟩))
  · rintro (⟨⟨addr, rfl⟩, hfull, rfl⟩ | ⟨rfl, hempty, rfl⟩ | ⟨x, rfl | rfl, hkey, rfl⟩ | ⟨hcount, hout, rfl⟩)
    · exact if_pos hfull
    · exact if_pos hempty
    · exact if_pos hkey
    · exact if_pos hkey
    · rw [fatalError_of_accesses s hcount, outOfRange_some hcount hout]
      rfl

section
variable {i : Instr} {s : State}

theorem fatalError_eq_stackOverflow_iff :
    fatalError i s = some .stackOverflow ↔ (∃ addr, i = .call addr) ∧ s.sp.val = 16 := by
  simp [fatalError_eq_some_iff]

theorem fatalError_eq_stackUnderflow_iff : fatalError i s = some .stackUnderflow ↔ i = .ret ∧ s.sp.val = 0 := by
  simp [fatalError_eq_some_iff]

theorem fatalError_eq_memoryFault_iff (a : Nat) : fatalError i s = some (.memoryFault a) ↔
    0 < accessCount i ∧ 4096 < s.i.toNat + accessCount i ∧ a = max s.i.toNat 4096 := by
  simp [fatalError_eq_some_iff]

theorem fatalError_eq_keyIndexFault_iff (k : Byte) : fatalError i s = some (.keyIndexFault k) ↔
    ∃ x, (i = .skipIfKeyDown x ∨ i = .skipIfKeyUp x) ∧ k = s.reg x ∧ 16 ≤ k.toNat := by
  have info (x : RegIdx) : 16 ≤ (s.reg x).toNat ∧ k = s.reg x ↔ k = s.reg x ∧ 16 ≤ k.toNat :=
    ⟨fun ⟨hkey, hk⟩ => ⟨hk, hk ▸ hkey⟩, fun ⟨hk, hkey⟩ => ⟨hk ▸ hkey, hk⟩⟩
  simp [fatalError_eq_some_iff, info]

end

/-- A handler that raises an error answers the same state, halted (60_exceptions.md R241). -/
theorem exec_of_fatalError {i : Instr} {s : State} {r : HaltReason} (he : fatalError i s = some r) :
    exec i s = .next (haltedWith r s) := by
  rw [exec_eq, he]
  rfl

/-- Settles O56: `SP` decides the two errors. -/
theorem stackErrorsHalt : Obligations.StackErrorsHalt :=
  ⟨fun _ _ hfull => exec_of_fatalError (if_pos hfull), fun _ hempty => exec_of_fatalError (if_pos hempty)⟩

/-- Settles O60: both skips raise the error before they look at a key. -/
theorem keyIndexOutOfRangeHalts : Obligations.KeyIndexOutOfRangeHalts :=
  fun _ _ hkey => ⟨exec_of_fatalError (if_pos hkey), exec_of_fatalError (if_pos hkey)⟩

/-! ### What a handler leaves in `run` -/

section
variable {i : Instr} {s t : State}

/-- The three ends of a handler on a Running machine: halted by its error where it stands, halted by phase 6, or
Running. -/
theorem exec_run_cases (hrun : s.run = .running) (h : exec i s = .next t) :
    (∃ r, fatalError i s = some r ∧ r.normal = false ∧ t.run = .halted r ∧ t.pc = s.pc) ∨
    (fatalError i s = none ∧ 4096 ≤ t.pc.toNat ∧ t.run = .halted .pcOutOfBounds) ∨
    (fatalError i s = none ∧ t.pc.toNat < 4096 ∧ t.run = .running) := by
  obtain ⟨-, r, he, hr, rfl⟩ | ⟨hend, he, -⟩ := exec_cases_of_running hrun h
  · exact .inl ⟨r, he, hr, rfl, rfl⟩
  · obtain ⟨outside, inside⟩ := postAdvanceCheckHaltsOutsideMemory i s t hrun h hend
    by_cases hpc : 4096 ≤ t.pc.toNat
    · exact .inr (.inl ⟨he, hpc, outside hpc⟩)
    · exact .inr (.inr ⟨he, Nat.not_le.mp hpc, inside (Nat.not_le.mp hpc)⟩)

/-- An error stands in `run` exactly when the handler raised it. -/
theorem exec_run_eq_halted_iff_fatalError (hrun : s.run = .running) (h : exec i s = .next t) {r : HaltReason}
    (hr : r.normal = false) : t.run = .halted r ↔ fatalError i s = some r := by
  obtain ⟨r', he, -, hend, -⟩ | ⟨he, -, hend⟩ | ⟨he, -, hend⟩ := exec_run_cases hrun h
  · simp [he, hend]
  · have hne : .pcOutOfBounds ≠ r := fun e => by rw [← e] at hr; cases hr
    simp [he, hend, hne]
  · simp [he, hend]

/-- A failed fetch is no handler's end. -/
theorem exec_run_ne_fetchOutOfBounds (hrun : s.run = .running) (h : exec i s = .next t) :
    t.run ≠ .halted .fetchOutOfBounds := by
  obtain ⟨r, -, hr, hend, -⟩ | ⟨-, -, hend⟩ | ⟨-, -, hend⟩ := exec_run_cases hrun h
  · rw [hend]
    rintro ⟨⟩
    cases hr
  · simp [hend]
  · simp [hend]

/-- A handler that raised an error left `PC` where its fetch succeeded, so `PC` outside memory was left by phase 5. -/
theorem exec_run_eq_pcOutOfBounds_iff (hrun : s.run = .running) (h : exec i s = .next t) (hpc : s.pc.toNat ≤ 0xFFE) :
    t.run = .halted .pcOutOfBounds ↔ 4096 ≤ t.pc.toNat := by
  obtain ⟨r, -, hr, hend, hstays⟩ | ⟨-, hout, hend⟩ | ⟨-, hin, hend⟩ := exec_run_cases hrun h
  · have hne : r ≠ .pcOutOfBounds := fun e => by rw [e] at hr; cases hr
    have hin : ¬ 4096 ≤ t.pc.toNat := by rw [hstays]; omega
    simp [hend, hne, hin]
  · simp [hend, hout]
  · simp [hend, hin]

/-- The machine runs on exactly when it neither ended with an error nor left memory. -/
theorem exec_run_eq_running_iff (hrun : s.run = .running) (h : exec i s = .next t) :
    t.run = .running ↔ t.endedFatally = false ∧ t.pc.toNat < 4096 := by
  obtain ⟨r, -, hr, hend, -⟩ | ⟨-, hout, hend⟩ | ⟨-, hin, hend⟩ := exec_run_cases hrun h
  · simp [State.endedFatally, hend, hr]
  · simp [hend, hout]
  · simp [State.endedFatally, hend, hin]

end

/-- Settles O21: a failed fetch halts before any handler; else the handler's end says which reason `run` has, and each
error has one cause, in fields that phases 1 to 3 leave alone. -/
theorem everyHaltHasItsOneCause : Obligations.EveryHaltHasItsOneCause := by
  intro keys rand s t hrun h
  obtain ⟨-, ⟨hfails, rfl⟩ | ⟨hpc, hexec⟩⟩ := stepWith_next_cases h
  · exact ⟨⟨fun _ => hfails, fun _ => rfl⟩, fun hle => by omega⟩
  · have hrun' : (atHandler keys rand s).run = .running := hrun
    have error {r : HaltReason} (hr : r.normal = false) := exec_run_eq_halted_iff_fatalError hrun' hexec hr
    exact ⟨⟨fun e => absurd e (exec_run_ne_fetchOutOfBounds hrun' hexec), fun hge => by omega⟩, fun _ =>
      ⟨(error rfl).trans fatalError_eq_stackOverflow_iff, (error rfl).trans fatalError_eq_stackUnderflow_iff,
        fun a => (error rfl).trans (fatalError_eq_memoryFault_iff a),
        fun k => (error rfl).trans (fatalError_eq_keyIndexFault_iff k),
        exec_run_eq_pcOutOfBounds_iff hrun' hexec hpc, exec_run_eq_running_iff hrun' hexec⟩⟩

end Sys2Proof.Machine

/-! ## Reset and load -/

namespace Sys2Proof.Machine

open Claims

/-- Construction copies FONT to address 0 and up (70_reset_and_hazards.md R262). -/
theorem State.construct_read_font (font : FontTable) {a : Nat} (h : a < Config.fontLen) :
    (State.construct font).mem.read a = font[a] := dif_pos h

theorem State.construct_read_zero (font : FontTable) {a : Nat} (h : Config.fontLen ≤ a) :
    (State.construct font).mem.read a = 0 := dif_neg (Nat.not_lt.mpr h)

/-- With nothing loaded the word at the entry point is 0x0000 (70_reset_and_hazards.md R261, R264). -/
theorem State.construct_wordAt_entry (font : FontTable) : wordAt (State.construct font).mem 0x200 = 0x0000 := by
  rw [← wordOfBytes_read, State.construct_read_zero font (by decide), State.construct_read_zero font (by decide)]
  rfl

/-- Settles O7: the arrays are replicated constants, and memory is FONT below address 80 and 0 from there. -/
theorem constructionGivesTheResetValues : Obligations.ConstructionGivesTheResetValues := by
  refine ⟨⟨Font.standard, rfl⟩, ?_⟩
  rintro font s rfl
  have hreg (x : RegIdx) : (State.construct font).reg x = 0 := Vector.getElem_replicate x.isLt
  have hstack (j : Fin 16) : (State.construct font).stack[j.val] = 0 := Vector.getElem_replicate j.isLt
  have hkey (k : Fin 16) : (State.construct font).key[k.val] = false := Vector.getElem_replicate k.isLt
  exact ⟨hreg, rfl, rfl, rfl, hstack, rfl, Display.pixel_blank, hkey,
    fun a => State.construct_read_font font a.isLt, fun _ ha _ => State.construct_read_zero font ha, rfl⟩

/-- Settles O27: the constructed machine has the invariant, and load keeps it. -/
theorem invariantHoldsAfterResetAndLoad : Obligations.InvariantHoldsAfterResetAndLoad :=
  ⟨State.construct_inv Font.standard, fun font _ _ h => (State.construct_inv font).of_load h⟩

/-- Settles O8: the image is one range of bytes that ends at 4096 or below, and memory is all that load writes. -/
theorem loadCopiesTheImageOrRejectsIt : Obligations.LoadCopiesTheImageOrRejectsIt := by
  refine ⟨fun image s hm hlen => ?accepted, fun image s hlong => load_of_gt hlong s, fun font => ?empty⟩
  case accepted =>
    have hfits : 0x200 + image.length ≤ 4096 := by omega
    exact ⟨_, load_of_le hlen s, fun _ hj => Memory.read_writeBytes_inside hm image hj hfits,
      fun _ ha => Memory.read_writeBytes_outside s.mem image ha, Memory.writeBytes_font s.mem 0x200 image, rfl⟩
  case empty =>
    have hword := State.construct_wordAt_entry font
    exact ⟨_, load_of_le (image := []) (by decide) _, hword, congrArg decodeWord hword⟩

end Sys2Proof.Machine

/-! ## Sample words -/

namespace Sys2Proof

open Machine.Claims

theorem decodeWord_of_encode_eq {w : Word} {i : Instr} (hwf : i.wf = true) (h : encode i = w) : decodeWord w = i := by
  rw [← h, decodeWord_encode hwf]

/-- Settles O5: three of the words have ignored bits set and decode as O4 says; each other one is the encoding of its
instruction, `Unknown` among them. -/
theorem sampleWordsDecode : Obligations.SampleWordsDecode := by
  obtain ⟨decodesGroup0, -, -, decodesShifts⟩ := ignoredBitsAreNotExamined
  have hclear : decodeWord 0x0AB0 = .clear := (decodesGroup0 0xA 0xB).1
  have hret : decodeWord 0x012E = .ret := (decodesGroup0 0x1 0x2).2
  have hshift : decodeWord 0x81F6 = .shiftRight 1 := (decodesShifts 0x1 0xF).1
  refine ⟨hclear, hret, ?_, ?_, ?_, hshift, ?_, ?_, ?_, ?_, ?_⟩
  all_goals exact decodeWord_of_encode_eq rfl rfl

end Sys2Proof
